-- ==== Sys2Proof/Word.lean ====
section
/-!
DEFINITION. The value types of the hardware (00_scope.md R6, R12): bytes, 32-bit words, the 64-bit count and the
32-byte digest. Every value is unsigned.
-/

namespace Sys2Proof

/-- R12: a byte is 8 bits. -/
abbrev Byte := BitVec 8

/-- R6 WORD_BITS: an output word, and a word of SHA-256, is 32 bits. -/
abbrev Word := BitVec 32

/-- R6 COUNT_BITS: the iteration count is an unsigned 64-bit integer. -/
abbrev Count := BitVec 64

/-- R6 DIGEST_BYTES, R24: the seed and every digest are exactly 32 bytes, opaque and not a number; byte 0 first. -/
abbrev Digest := Vector Byte 32

end Sys2Proof
end

