-- ==== Sys2Proof/Config.lean ====
section
/-!
DEFINITION. What is fixed for the hardware (00_scope.md R6), its one open parameter (R7), and the free values: constants
with no body that stand for what the spec leaves undefined (10_state.md R34, R35), so that no proof can know them.
-/

namespace Sys2Proof

/-- R6: bytes of the count field, offsets [0, 8). -/
abbrev Config.countBytes : Nat := 8

/-- R6: bytes of the seed field, offsets [8, 40). -/
abbrev Config.seedBytes : Nat := 32

/-- R6: least legal input-buffer length in bytes. -/
abbrev Config.minLen : Nat := 40

/-- R6: number of output words. -/
abbrev Config.outWords : Nat := 8

/-- R6: digest bytes per output word. -/
abbrev Config.wordBytes : Nat := 4

/-- R7: IBUF_MAX_LEN, the greatest buffer length the host may bind; `none` is unbounded, which R7 allows a model to take.
DESIGN CHOICE (log entry 9), safe: no rule's result depends on it. -/
def Config.ibufMaxLen : Option Nat := none

/-- R34, U1: the free value of draw `k` for a 64-bit register (N or I) that the spec leaves undefined. Log entry 2. -/
opaque Config.freeCount : Nat → Count

/-- R34, U1: the free value of draw `k` for the 32 bytes of STATE. Log entry 2. -/
opaque Config.freeDigest : Nat → Digest

/-- R34, R35, U1, U2: the free value of draw `k` for a 32-bit word: an undefined OUT register, or what RDOUT returns
outside DONE. Log entries 2 and 3. -/
opaque Config.freeWord : Nat → Word

end Sys2Proof
end

