-- ==== Sys2Proof/Syntax.lean ====
section
/-!
DEFINITION. The eight operations of the hardware, one constructor per row of spec/opcode_table.json, in its order. The
hardware has no instruction set (00_scope.md R1); these operations, four of the host and four of the core, are what a
step performs (30_encoding.md R70).
-/

namespace Sys2Proof

/-- The operations, with the operands the spec gives them. -/
inductive Instr where
  /-- RESET (R136), host. -/
  | reset
  /-- LOAD (R137), host: bind the byte sequence `buf`, of any length and content. -/
  | load (buf : List Byte)
  /-- RDSTATUS (R138), host. -/
  | rdstatus
  /-- RDOUT (R139), host: "an index outside 0 to 7 cannot be expressed". -/
  | rdout (i : Fin 8)
  /-- DECODE (R80), core. -/
  | decode
  /-- HASHSTEP (R110), core. -/
  | hashstep
  /-- FINALIZE (R111), core. -/
  | finalize
  /-- ENCODE (R125), core. -/
  | encode
  deriving DecidableEq, Repr

end Sys2Proof
end

