-- ==== Sys2Proof/Machine/State.lean ====
section
/-!
DEFINITION. The state of the machine (10_state.md R20): the spec's own elements, and beside them the model's record of
what the outside world sends and receives. State is plain data.
-/

namespace Sys2Proof.Machine

/-- R23: the sequencer's five phases; MALFORMED is the terminal error state. -/
inductive Phase where
  | start
  | seeded
  | finalized
  | done
  | malformed
  deriving DecidableEq, Repr

/-- R135: what the host may do. -/
inductive HostOp where
  /-- R136. -/
  | reset
  /-- R137. -/
  | load (buf : List Byte)
  /-- R138. -/
  | rdstatus
  /-- R139. -/
  | rdout (i : Fin 8)
  deriving DecidableEq, Repr

/-- Whose move is next (R8, R11, R135: the host moves between two core operations). DESIGN CHOICE, log entry 5. -/
inductive Turn where
  | core
  | host (op : HostOp)
  deriving DecidableEq, Repr

/-- R138, R139: what a host read returned to the host. DESIGN CHOICE, log entry 4. -/
inductive Reply where
  | status (w : Word)
  | out (i : Fin 8) (w : Word)
  deriving DecidableEq, Repr

/-- The bytes of the input-buffer space (R41), in one canonical form: addresses strictly rising, and no entry equal to
what an unlisted address below the buffer's length holds, which is `Memory.unlisted`. Log entry 12. -/
abbrev Memory := List Host.Cell

/-- R20, R41: a bound buffer, its length LEN and its bytes at the offsets 0 to LEN - 1. -/
structure InputBuffer where
  len : Nat
  cells : Memory
  deriving DecidableEq, Repr

/-- The state. The first seven fields are the spec's (R20; LEN is in `ibuf`, STATUS is a view); the last four are the
model's own. -/
structure State where
  /-- PHASE (R23). -/
  phase : Phase
  /-- IBUF with LEN (R32); `none` is the spec's "unbound". -/
  ibuf : Option InputBuffer
  /-- N, the iteration count (R22). -/
  n : Count
  /-- I, the iterations done so far (R26). -/
  i : Count
  /-- STATE, the chain state S[0..31] (R24). -/
  state : Digest
  /-- OUT[0..7] (R25). -/
  out : Vector Word 8
  /-- OTRACE, the ordered writes since the last RESET (R33). -/
  otrace : List (Fin 8 × Word)
  /-- The moves still to come; when there is none, the core moves. Log entry 5. -/
  turns : List Turn
  /-- What the host got back from its reads, oldest first. Log entry 4. -/
  replies : List Reply
  /-- Every ordered write the OutputSink has received, oldest first; RESET recalls none of them (R136). Log entry 6. -/
  sinkRx : List (Fin 8 × Word)
  /-- How many free values have been drawn; the next draw's number. Log entry 2. -/
  draws : Nat
  deriving DecidableEq, Repr

/-- Why the machine stops with a fault. MalformedInput is none of these: it is taken as a next state (R154). -/
inductive Fault where
  /-- Raised by `memRead` for bytes that are not in the bound buffer (R14, R41). Safe: R41 says the access is never made,
  and DECODE, its only caller, checks the length first (R81). Log entry 20. -/
  | outsideBuffer
  deriving DecidableEq, Repr

/-- Why an operation has no effect to take. -/
inductive Refusal where
  /-- Raised by `exec`'s arm of an operation that has no meaning yet; no arm is left so. Safe. -/
  | notModelled (mnemonic : String)
  /-- Raised by LOAD when PHASE is not START or a buffer is bound (R137, U6: the host "has no move"). Safe. Log entry 8. -/
  | loadNotAvailable
  /-- Raised by LOAD for a buffer longer than IBUF_MAX_LEN (R7). Safe; never raised while it is unbounded. Log entry 9. -/
  | bufferTooLong
  /-- Raised by a core operation asked for in a state where it is not enabled (R70). Safe: `step` never asks. Log entry 10. -/
  | coreOpNotEnabled (mnemonic : String)
  deriving DecidableEq, Repr

/-- R34, R170: the state after RESET at power-on. N, I, STATE and OUT are undefined there and hold free values, the draws
0 to 10 (log entry 2); nothing has been sent or received. -/
def State.reset : State where
  phase := .start
  ibuf := none
  n := Config.freeCount 0
  i := Config.freeCount 1
  state := Config.freeDigest 2
  out := #v[Config.freeWord 3, Config.freeWord 4, Config.freeWord 5, Config.freeWord 6,
    Config.freeWord 7, Config.freeWord 8, Config.freeWord 9, Config.freeWord 10]
  otrace := []
  turns := []
  replies := []
  sinkRx := []
  draws := 11

end Sys2Proof.Machine
end

