-- ==== Sys2Proof/Machine/Flags.lean ====
section
/-!
DEFINITION. STATUS, the one status register, a view of PHASE and of whether IBUF is bound (10_state.md R29), and the
PHASE codes (30_encoding.md R69). The hardware has no arithmetic flag and no condition code (R27).
-/

namespace Sys2Proof.Machine

/-- R69: the 3-bit code of a phase. -/
def Phase.code : Phase → BitVec 3
  | .start => 0
  | .seeded => 1
  | .finalized => 2
  | .done => 3
  | .malformed => 4

/-- R29: STATUS.DONE. -/
def Phase.doneBit : Phase → BitVec 1
  | .start => 0
  | .seeded => 0
  | .finalized => 0
  | .done => 1
  | .malformed => 0

/-- R29, R151: STATUS.ERR, the cause code of the error the run ended with; 1 is MalformedInput, 0 is none. -/
def Phase.errCode : Phase → BitVec 4
  | .start => 0
  | .seeded => 0
  | .finalized => 0
  | .done => 0
  | .malformed => 1

/-- R29: STATUS.BOUND. -/
def State.boundBit (s : State) : BitVec 1 := BitVec.ofBool s.ibuf.isSome

/-- R29: STATUS, bits 31:9 zero, 8 BOUND, 7:4 ERR, 3 DONE, 2:0 PHASE. -/
def State.status (s : State) : Word :=
  0#23 ++ s.boundBit ++ s.phase.errCode ++ s.phase.doneBit ++ s.phase.code

/-- R20: LEN, defined only when IBUF is bound. -/
def State.len (s : State) : Option Nat := s.ibuf.map InputBuffer.len

end Sys2Proof.Machine
end

