-- ==== Sys2Proof/WellFormed.lean ====
section
/-!
DEFINITION. Which operations can be expressed on a platform: the one check is the length of LOAD's buffer against
IBUF_MAX_LEN (00_scope.md R7, 44_host.md R137). RDOUT's index is bounded by its type.
-/

namespace Sys2Proof

/-- R7, R137: `len(buf) <= IBUF_MAX_LEN`, for a bound given as an argument (`none`: unbounded). -/
def Instr.wellFormedFor (bound : Option Nat) : Instr → Bool
  | .load buf =>
    match bound with
    | none => true
    | some m => decide (buf.length ≤ m)
  | .reset => true
  | .rdstatus => true
  | .rdout _ => true
  | .decode => true
  | .hashstep => true
  | .finalize => true
  | .encode => true

/-- Well-formed for this model's IBUF_MAX_LEN. -/
def Instr.wellFormed (i : Instr) : Bool := i.wellFormedFor Config.ibufMaxLen

end Sys2Proof
end

