-- ==== Sys2Proof/Decode.lean ====
section
/-!
DEFINITION. The two things that are decoded, and their encoders.
(1) Format IB, the input buffer, "the only format the hardware decodes" (30_encoding.md R60): `decodeBuffer`, `Job.encode`,
with the byte-order functions of 00_scope.md R13.
(2) The selection of an operation (R69, R70, R71): the core's operation is selected by the PHASE code and a condition,
written here as one selector byte; a host operation, which the spec gives no code, has a model-made transaction byte
(DESIGN CHOICE, log entry 1, safe: nothing but the encoder, the decoder and `withFetchWord` depends on it).
-/

namespace Sys2Proof

/-! ### Byte order (R13) -/

/-- R13: `le(b)`, byte 0 least significant. -/
def le : List Byte → Nat
  | [] => 0
  | b :: bs => b.toNat + 256 * le bs

/-- R13: `be(b)`, byte 0 most significant. -/
def be (bs : List Byte) : Nat := le bs.reverse

/-- R13: `to_le_k(v)`, the `k` bytes whose `le` is `v` (for `v < 256^k`). -/
def toLe : Nat → Nat → List Byte
  | 0, _ => []
  | k + 1, v => BitVec.ofNat 8 v :: toLe k (v / 256)

/-- R13: `to_be_k(v)`, the `k` bytes whose `be` is `v` (for `v < 256^k`). -/
def toBe (k v : Nat) : List Byte := (toLe k v).reverse

/-! ### Format IB (R60) and the job notation (R74) -/

/-- R83: the decoder as a function of the presented buffer: `none` is MalformedInput. -/
def decodeBuffer (buf : List Byte) : Option (Count × Digest) :=
  if buf.length < Config.minLen then none
  else some (BitVec.ofNat 64 (le (buf.take 8)), Vector.ofFn fun j : Fin 32 => buf.getD (8 + j.val) 0)

/-- R74 (a): a job, `job(n, seed) tail`. -/
structure Job where
  n : Count
  seed : Digest
  tail : List Byte
  deriving DecidableEq, Repr

/-- R74 (a): the buffer a job denotes, `to_le_8(n) || seed || tail`. -/
def Job.encode (j : Job) : List Byte := toLe 8 j.n.toNat ++ j.seed.toList ++ j.tail

/-! ### Selection of an operation (R69, R70, R71) -/

/-- Why a selector or a host transaction names no operation. -/
inductive DecodeError where
  /-- No byte at all. -/
  | empty
  /-- R70: START with IBUF unbound; the core waits for LOAD. -/
  | waitingForLoad
  /-- R70: SEEDED with I above N, where neither HASHSTEP nor FINALIZE is enabled (unreachable, R118). Log entry 11. -/
  | countPassed
  /-- R70, R182: DONE or MALFORMED, the run has ended. -/
  | runEnded
  /-- R69: PHASE codes 5, 6 and 7 are reserved. -/
  | reservedPhase
  /-- A condition or host code that the selector does not use. -/
  | reservedCode
  /-- Bytes after an operation that has no payload. -/
  | trailingBytes
  deriving DecidableEq, Repr

/-- R70: the core's operation, from a selector byte. Bits 2:0 are the PHASE code (R69). Bit 3 is 1 when IBUF is unbound,
read in START only. Bits 5:4 compare I with N, read in SEEDED only: 0 for `I < N`, 1 for `I = N`, 2 for `I > N`. Bit 6
is 0. As R71's masks say, only the PHASE code and the phase's own condition are looked at. -/
def decodeCore (b : Byte) : Except DecodeError Instr :=
  if b.getLsbD 6 then .error .reservedCode
  else
    match (b.extractLsb' 0 3).toNat with
    | 0 => if b.getLsbD 3 then .error .waitingForLoad else .ok .decode
    | 1 =>
      match (b.extractLsb' 4 2).toNat with
      | 0 => .ok .hashstep
      | 1 => .ok .finalize
      | 2 => .error .countPassed
      | _ => .error .reservedCode
    | 2 => .ok .encode
    | 3 => .error .runEnded
    | 4 => .error .runEnded
    | _ => .error .reservedPhase

/-- A host operation, from its transaction byte and payload (log entry 1): bit 7 is 1, bits 6:3 name the operation
(0 RESET, 1 LOAD, 2 RDSTATUS, 3 RDOUT), bits 2:0 are RDOUT's index and 0 otherwise. Only LOAD has a payload, the buffer. -/
def decodeHost (b : Byte) (rest : List Byte) : Except DecodeError Instr :=
  let low := b.extractLsb' 0 3
  match (b.extractLsb' 3 4).toNat with
  | 0 => if low = 0 then (if rest = [] then .ok .reset else .error .trailingBytes) else .error .reservedCode
  | 1 => if low = 0 then .ok (.load rest) else .error .reservedCode
  | 2 => if low = 0 then (if rest = [] then .ok .rdstatus else .error .trailingBytes) else .error .reservedCode
  | 3 => if rest = [] then .ok (.rdout ⟨low.toNat, low.isLt⟩) else .error .trailingBytes
  | _ => .error .reservedCode

/-- The decoder, total on any bytes: bit 7 of the first byte tells a host transaction from a core selector. -/
def decodeBytes : List Byte → Except DecodeError Instr
  | [] => .error .empty
  | b :: rest =>
    if b.getLsbD 7 then decodeHost b rest
    else if rest = [] then decodeCore b
    else .error .trailingBytes

/-- The encoder: for a core operation the PHASE code of its row (R71's `match`) with the condition of R70, unread
condition bits 0; for a host operation its transaction byte, and for LOAD the buffer after it. -/
def encode : Instr → List Byte
  | .reset => [0x80]
  | .load buf => 0x88 :: buf
  | .rdstatus => [0x90]
  | .rdout i => [0x98 + BitVec.ofNat 8 i.val]
  | .decode => [0x00]
  | .hashstep => [0x01]
  | .finalize => [0x11]
  | .encode => [0x02]

/-- The operation the decoder reads from a table word of `nbits` bits, laid out in whole bytes with the first byte least
significant. Every operation is one byte, and LOAD's payload is then the empty buffer. -/
def decodeTableWord (nbits w : Nat) : Option Instr :=
  match decodeBytes (toLe (max 1 ((nbits + 7) / 8)) w) with
  | .ok i => some i
  | .error _ => none

end Sys2Proof
end

