-- ==== Sys2Proof/Machine/Operands.lean ====
section
/-!
DEFINITION. Operand assembly (30_encoding.md section 2): the count from its eight bytes, an output word from its four
digest bytes, and the digest from eight words. No operation has an addressing mode or a register operand (R21).
-/

namespace Sys2Proof.Machine

/-- R64: the count, `le` of the eight field bytes. -/
def countOfBytes (field : Vector Byte 8) : Count := BitVec.ofNat 64 (le field.toList)

/-- R66: output word `i` of a digest, `be(S[4i .. 4i+4))`. -/
def outWord (d : Digest) (i : Fin 8) : Word :=
  BitVec.ofNat 32 (be [d[4 * i.val], d[4 * i.val + 1], d[4 * i.val + 2], d[4 * i.val + 3]])

/-- R66: the eight output words of a digest. -/
def outWords (d : Digest) : Vector Word 8 := Vector.ofFn (outWord d)

/-- R100: byte `r` of a word, byte 0 the most significant (bits 31:24). -/
def byteOfWord (w : Word) (r : Nat) : Byte := w.extractLsb' (24 - 8 * r) 8

/-- R100, R129: `to_be_4(w_0) || ... || to_be_4(w_7)`, the digest eight words spell. -/
def digestOfWords (ws : Vector Word 8) : Digest :=
  Vector.ofFn fun j : Fin 32 => byteOfWord (ws[j.val / 4]'(by omega)) (j.val % 4)

end Sys2Proof.Machine
end

