-- ==== Sys2Proof/Machine/Ops.lean ====
section
/-!
DEFINITION. The named operations over the input-buffer space, the output-word space and the state: reading the buffer,
the ordered output write, taking MalformedInput, leaving registers undefined, replying to the host, and the selection of
what the next step performs.
-/

namespace Sys2Proof.Machine

/-! ### The input-buffer space (R41) -/

/-- What an offset below LEN that is not listed holds: the byte 0. A convention of the representation only, log entry 12. -/
def Memory.unlisted : Byte := 0

/-- The byte at an address. -/
def Memory.byte : Memory → Nat → Byte
  | [], _ => Memory.unlisted
  | c :: m, a => if c.1 = a then c.2 else Memory.byte m a

/-- The canonical form for addresses from `lo` on: strictly rising, below `hi`, and no entry that holds `unlisted`. -/
def Memory.wfFrom (lo hi : Nat) : Memory → Bool
  | [] => true
  | c :: m => decide (lo ≤ c.1) && decide (c.1 < hi) && decide (c.2 ≠ Memory.unlisted) && Memory.wfFrom (c.1 + 1) hi m

/-- The canonical form of the bytes of a buffer of `hi` bytes. -/
def Memory.wf (hi : Nat) (m : Memory) : Bool := m.wfFrom 0 hi

/-- The bytes `bs` at the addresses from `k` on, in canonical form. -/
def Memory.ofBytes : Nat → List Byte → Memory
  | _, [] => []
  | k, b :: bs => if b = Memory.unlisted then Memory.ofBytes (k + 1) bs else (k, b) :: Memory.ofBytes (k + 1) bs

/-- R32, R137: the buffer as the host presents it, with its length. -/
def InputBuffer.ofBytes (bs : List Byte) : InputBuffer := { len := bs.length, cells := Memory.ofBytes 0 bs }

/-- IBUF[k], for an offset k below LEN. -/
def InputBuffer.byte (b : InputBuffer) (k : Nat) : Byte := b.cells.byte k

/-- The buffer's bytes are in canonical form. -/
def InputBuffer.wf (b : InputBuffer) : Bool := b.cells.wf b.len

/-- R14: `MemRead(k, n)`, the bytes IBUF[k .. k+n), defined only when IBUF is bound and `k + n <= LEN`; no side effect. -/
def memRead (k n : Nat) (s : State) : Except Fault (Vector Byte n) :=
  match s.ibuf with
  | none => .error .outsideBuffer
  | some b => if k + n ≤ b.len then .ok (Vector.ofFn fun j => b.byte (k + j.val)) else .error .outsideBuffer

/-! ### The output-word space (R42) -/

/-- R14: `MemWrite(i, 4, v)`: OUT[i] is written, the pair is appended to OTRACE and handed to the sink. -/
def memWrite (i : Fin 8) (v : Word) (s : State) : State :=
  { s with out := s.out.set i.val v, otrace := s.otrace ++ [(i, v)], sinkRx := s.sinkRx ++ [(i, v)] }

/-! ### Exception entry (R154) -/

/-- R154: taking MalformedInput: PHASE becomes MALFORMED and nothing else changes; nothing is saved and no handler runs.
There is no return from it (R155); RESET is the only way out. -/
def raiseMalformedInput (s : State) : State := { s with phase := .malformed }

/-! ### Host side -/

/-- R34, R136: N, I, STATE and OUT become undefined: free values, the next eleven draws. Log entry 2. -/
def undefineRegisters (s : State) : State :=
  { s with
    n := Config.freeCount s.draws
    i := Config.freeCount (s.draws + 1)
    state := Config.freeDigest (s.draws + 2)
    out := #v[Config.freeWord (s.draws + 3), Config.freeWord (s.draws + 4), Config.freeWord (s.draws + 5),
      Config.freeWord (s.draws + 6), Config.freeWord (s.draws + 7), Config.freeWord (s.draws + 8),
      Config.freeWord (s.draws + 9), Config.freeWord (s.draws + 10)]
    draws := s.draws + 11 }

/-- R138, R139: hand a read's result to the host. -/
def reply (r : Reply) (s : State) : State := { s with replies := s.replies ++ [r] }

/-! ### What the next step performs (R70, R135) -/

/-- R135: a host move as an operation. -/
def HostOp.instr : HostOp → Instr
  | .reset => .reset
  | .load buf => .load buf
  | .rdstatus => .rdstatus
  | .rdout i => .rdout i

/-- The condition bits of the core's selector byte, above the PHASE code (`decodeCore`): IBUF unbound in START, I against
N in SEEDED. In the other phases R70 has no further condition. -/
def State.condition (s : State) : BitVec 3 :=
  match s.phase with
  | .start => if s.ibuf.isSome then 0 else 1
  | .seeded => if s.i < s.n then 0 else if s.i = s.n then 2 else 4
  | .finalized => 0
  | .done => 0
  | .malformed => 0

/-- R70, R71: the core's selector byte, its PHASE code with the condition. -/
def State.selector (s : State) : Byte := 0#2 ++ s.condition ++ s.phase.code

/-- What the next step performs: the host's move if it is the host's turn, otherwise the core operation that the selector
decodes to, if one is enabled. -/
def State.fetch (s : State) : Option Instr :=
  match s.turns with
  | .host op :: _ => some op.instr
  | _ =>
    match decodeBytes [s.selector] with
    | .ok i => some i
    | .error _ => none

/-- The turn that a step takes is used up. -/
def State.advance (s : State) : State := { s with turns := s.turns.tail }

/-- The state in which the next step performs `i`: for a host operation the host's turn comes next (and for LOAD the
machine is in START with no buffer bound); for a core operation the core's turn comes next and what R70 selects the
operation by holds: DECODE gets a 40-byte buffer of zeros if none is bound, HASHSTEP I = 0 and N = 1, FINALIZE I = N = 0.
Log entry 15. -/
def State.selecting (s : State) : Instr → State
  | .reset => { s with turns := .host .reset :: s.turns }
  | .load buf => { s with phase := .start, ibuf := none, turns := .host (.load buf) :: s.turns }
  | .rdstatus => { s with turns := .host .rdstatus :: s.turns }
  | .rdout i => { s with turns := .host (.rdout i) :: s.turns }
  | .decode =>
    { s with phase := .start, ibuf := some (s.ibuf.getD { len := 40, cells := [] }), turns := .core :: s.turns }
  | .hashstep => { s with phase := .seeded, n := 1, i := 0, turns := .core :: s.turns }
  | .finalize => { s with phase := .seeded, n := 0, i := 0, turns := .core :: s.turns }
  | .encode => { s with phase := .finalized, turns := .core :: s.turns }

end Sys2Proof.Machine
end

