-- ==== Sys2Proof/Machine/Decoder.lean ====
section
/-!
DEFINITION. The input decoder: DECODE (40_decode.md R80 to R85).
-/

namespace Sys2Proof.Machine

/-- R80, R81, R82: DECODE. The length check comes first; a short buffer raises MalformedInput and no byte is read. -/
def execDecode (s : State) : Host.Outcome State Fault Refusal :=
  match s.phase, s.ibuf with
  | .start, some b =>
    if b.len < Config.minLen then .next (raiseMalformedInput s)
    else
      match memRead 0 Config.countBytes s, memRead 8 Config.seedBytes s with
      | .ok field, .ok seed => .next { s with n := countOfBytes field, i := 0, state := seed, phase := .seeded }
      | .error e, _ => .fault e
      | .ok _, .error e => .fault e
  | _, _ => .refused (.coreOpNotEnabled "DECODE")

end Sys2Proof.Machine
end

