-- ==== Sys2Proof/Machine/Encoder.lean ====
section
/-!
DEFINITION. The output encoder: ENCODE (43_encode.md R125 to R131), and the one text form the spec gives a sink
(30_encoding.md R73).
-/

namespace Sys2Proof.Machine

/-- R125: the eight ordered writes, index 0 first. -/
def writeOutputs (s : State) : State :=
  [0, 1, 2, 3, 4, 5, 6, 7].foldl (fun t i => memWrite i (outWord s.state i) t) s

/-- R125: ENCODE. -/
def execEncode (s : State) : Host.Outcome State Fault Refusal :=
  if s.phase = .finalized then .next { writeOutputs s with phase := .done }
  else .refused (.coreOpNotEnabled "ENCODE")

/-! ### A printing sink (R73) -/

/-- A hexadecimal digit; R73 leaves the case open, so it is an argument (log entry 16). -/
def hexDigit (upper : Bool) (d : Nat) : Char :=
  if d < 10 then Char.ofNat (48 + d) else Char.ofNat ((if upper then 55 else 87) + d)

/-- The last `k` hexadecimal digits of a number, most significant first, with leading zeros. -/
def hexDigits (upper : Bool) : Nat → Nat → List Char
  | 0, _ => []
  | k + 1, v => hexDigits upper k (v / 16) ++ [hexDigit upper (v % 16)]

/-- R73: the line of a printing sink for word `i` with value `w`, without its line end, which R73 leaves open. -/
def sinkLine (upper : Bool) (i : Fin 8) (w : Word) : List Char :=
  "public ".toList ++ [hexDigit upper i.val] ++ ": 0x".toList ++ hexDigits upper 8 w.toNat

end Sys2Proof.Machine
end

