-- ==== Sys2Proof/Machine/Hash.lean ====
section
/-!
DEFINITION. Hash256, SHA-256 of a 32-byte message, padding included (41_hash256.md R90 to R100). The algorithm is the
spec's own passage from general knowledge (93_implementation_defined.md G1; PRESUMED, log entry 13). Its working storage
is no state (10_state.md R30): this is a pure function.
-/

namespace Sys2Proof.Machine

/-! ### Word functions (R92, R93) -/

/-- R92: rotate right. -/
def rotr (k : Nat) (x : Word) : Word := x.rotateRight k

/-- R92: logical right shift. -/
def shr (k : Nat) (x : Word) : Word := x >>> k

/-- R93. -/
def ch (x y z : Word) : Word := (x &&& y) ^^^ (~~~x &&& z)

/-- R93. -/
def maj (x y z : Word) : Word := (x &&& y) ^^^ (x &&& z) ^^^ (y &&& z)

/-- R93, "big sigma 0". -/
def bsig0 (x : Word) : Word := rotr 2 x ^^^ rotr 13 x ^^^ rotr 22 x

/-- R93, "big sigma 1". -/
def bsig1 (x : Word) : Word := rotr 6 x ^^^ rotr 11 x ^^^ rotr 25 x

/-- R93, "small sigma 0". -/
def ssig0 (x : Word) : Word := rotr 7 x ^^^ rotr 18 x ^^^ shr 3 x

/-- R93, "small sigma 1". -/
def ssig1 (x : Word) : Word := rotr 17 x ^^^ rotr 19 x ^^^ shr 10 x

/-! ### Constants (R94, R95) -/

/-- R94: the 64 round constants, eight a line. -/
def roundConstants : List Word :=
  [0x428a2f98, 0x71374491, 0xb5c0fbcf, 0xe9b5dba5, 0x3956c25b, 0x59f111f1, 0x923f82a4, 0xab1c5ed5] ++
  [0xd807aa98, 0x12835b01, 0x243185be, 0x550c7dc3, 0x72be5d74, 0x80deb1fe, 0x9bdc06a7, 0xc19bf174] ++
  [0xe49b69c1, 0xefbe4786, 0x0fc19dc6, 0x240ca1cc, 0x2de92c6f, 0x4a7484aa, 0x5cb0a9dc, 0x76f988da] ++
  [0x983e5152, 0xa831c66d, 0xb00327c8, 0xbf597fc7, 0xc6e00bf3, 0xd5a79147, 0x06ca6351, 0x14292967] ++
  [0x27b70a85, 0x2e1b2138, 0x4d2c6dfc, 0x53380d13, 0x650a7354, 0x766a0abb, 0x81c2c92e, 0x92722c85] ++
  [0xa2bfe8a1, 0xa81a664b, 0xc24b8b70, 0xc76c51a3, 0xd192e819, 0xd6990624, 0xf40e3585, 0x106aa070] ++
  [0x19a4c116, 0x1e376c08, 0x2748774c, 0x34b0bcb5, 0x391c0cb3, 0x4ed8aa4a, 0x5b9cca4f, 0x682e6ff3] ++
  [0x748f82ee, 0x78a5636f, 0x84c87814, 0x8cc70208, 0x90befffa, 0xa4506ceb, 0xbef9a3f7, 0xc67178f2]

/-- R99: the eight working variables. -/
structure WorkVars where
  a : Word
  b : Word
  c : Word
  d : Word
  e : Word
  f : Word
  g : Word
  h : Word
  deriving DecidableEq, Repr

/-- R95: the initial hash value IV[0..7]. -/
def initialHash : WorkVars where
  a := 0x6a09e667
  b := 0xbb67ae85
  c := 0x3c6ef372
  d := 0xa54ff53a
  e := 0x510e527f
  f := 0x9b05688c
  g := 0x1f83d9ab
  h := 0x5be0cd19

/-! ### The algorithm (R96 to R100) -/

/-- R96, R62: format PB, the padded block of 64 bytes. -/
def paddedBlock (s : Digest) : List Byte :=
  s.toList ++ [0x80] ++ List.replicate 23 0x00 ++ [0, 0, 0, 0, 0, 0, 1, 0]

/-- R97: the big-endian words of a byte sequence, four bytes a word. -/
def beWords : List Byte → List Word
  | b0 :: b1 :: b2 :: b3 :: bs => BitVec.ofNat 32 (be [b0, b1, b2, b3]) :: beWords bs
  | _ => []

/-- R98: the next schedule word, from the words so far, newest first: W[t-2], W[t-7], W[t-15], W[t-16]. -/
def nextScheduleWord (newest : List Word) : Word :=
  ssig1 (newest.getD 1 0) + newest.getD 6 0 + ssig0 (newest.getD 14 0) + newest.getD 15 0

/-- R98: `k` more schedule words, newest first. -/
def extendSchedule : Nat → List Word → List Word
  | 0, newest => newest
  | k + 1, newest => extendSchedule k (nextScheduleWord newest :: newest)

/-- R97, R98: the message schedule W[0..63] of the padded block. -/
def schedule (s : Digest) : List Word := (extendSchedule 48 (beWords (paddedBlock s)).reverse).reverse

/-- R99: one round, with `(K[t], W[t])`. -/
def compressRound (v : WorkVars) (kw : Word × Word) : WorkVars :=
  let t1 := v.h + bsig1 v.e + ch v.e v.f v.g + kw.1 + kw.2
  let t2 := bsig0 v.a + maj v.a v.b v.c
  { a := t1 + t2, b := v.a, c := v.b, d := v.c, e := v.d + t1, f := v.e, g := v.f, h := v.g }

/-- R99: the working variables after the 64 rounds. -/
def compress (s : Digest) : WorkVars := (roundConstants.zip (schedule s)).foldl compressRound initialHash

/-- R100: the final hash value H[0..7]. -/
def finalHash (s : Digest) : Vector Word 8 :=
  let v := compress s
  #v[initialHash.a + v.a, initialHash.b + v.b, initialHash.c + v.c, initialHash.d + v.d,
    initialHash.e + v.e, initialHash.f + v.f, initialHash.g + v.g, initialHash.h + v.h]

/-- R90, R91, R100: `Hash256(s)`. -/
def hash256 (s : Digest) : Digest := digestOfWords (finalHash s)

end Sys2Proof.Machine
end

