-- ==== Sys2Proof/Machine/Engine.lean ====
section
/-!
DEFINITION. The hash-chain engine: HASHSTEP and FINALIZE, and the chain function (42_chain.md R110 to R121).
-/

namespace Sys2Proof.Machine

/-- R113: `HashChain(n, seed)`: Digest_0 is the seed and Digest_(i+1) is Hash256(Digest_i). -/
def hashChain : Nat → Digest → Digest
  | 0, seed => seed
  | n + 1, seed => hash256 (hashChain n seed)

/-- R110: HASHSTEP, one iteration of the chain. -/
def execHashstep (s : State) : Host.Outcome State Fault Refusal :=
  if s.phase = .seeded ∧ s.i < s.n then .next { s with state := hash256 s.state, i := s.i + 1 }
  else .refused (.coreOpNotEnabled "HASHSTEP")

/-- R111: FINALIZE, leave the loop when the count is reached. -/
def execFinalize (s : State) : Host.Outcome State Fault Refusal :=
  if s.phase = .seeded ∧ s.i = s.n then .next { s with phase := .finalized }
  else .refused (.coreOpNotEnabled "FINALIZE")

end Sys2Proof.Machine
end

