-- ==== Sys2Proof/Machine/HostOps.lean ====
section
/-!
DEFINITION. The host's operations: RESET, LOAD, RDSTATUS, RDOUT (44_host.md R136 to R139).
-/

namespace Sys2Proof.Machine

/-- R136: RESET, in every phase. What the host and the sink already received is not recalled. -/
def execReset (s : State) : Host.Outcome State Fault Refusal :=
  .next { undefineRegisters s with phase := .start, ibuf := none, otrace := [] }

/-- R137: LOAD, available in START with no buffer bound; a buffer of any length, short ones included, is accepted. -/
def execLoad (buf : List Byte) (s : State) : Host.Outcome State Fault Refusal :=
  if s.phase = .start ∧ s.ibuf = none then
    if (Instr.load buf).wellFormed then .next { s with ibuf := some (InputBuffer.ofBytes buf) }
    else .refused .bufferTooLong
  else .refused .loadNotAvailable

/-- R138: RDSTATUS, which returns STATUS and has no side effect. -/
def execRdstatus (s : State) : Host.Outcome State Fault Refusal := .next (reply (.status s.status) s)

/-- R139, R35: RDOUT, which returns OUT[i] in DONE and an unspecified word, a fresh free value, in any other phase. -/
def execRdout (i : Fin 8) (s : State) : Host.Outcome State Fault Refusal :=
  if s.phase = .done then .next (reply (.out i s.out[i.val]) s)
  else .next { reply (.out i (Config.freeWord s.draws)) s with draws := s.draws + 1 }

end Sys2Proof.Machine
end

