-- ==== Sys2Proof/Machine/Dispatch.lean ====
section
/-!
DEFINITION. One arm per operation.
-/

namespace Sys2Proof.Machine

def exec (i : Instr) (s : State) : Host.Outcome State Fault Refusal :=
  match i with
  | .reset => Sys2Proof.Machine.execReset s
  | .load buf => Sys2Proof.Machine.execLoad buf s
  | .rdstatus => Sys2Proof.Machine.execRdstatus s
  | .rdout k => Sys2Proof.Machine.execRdout k s
  | .decode => Sys2Proof.Machine.execDecode s
  | .hashstep => Sys2Proof.Machine.execHashstep s
  | .finalize => Sys2Proof.Machine.execFinalize s
  | .encode => Sys2Proof.Machine.execEncode s

end Sys2Proof.Machine
end

