-- ==== Sys2Proof/Machine/Step.lean ====
section
/-!
DEFINITION. One step: one whole operation of one agent (00_scope.md R11).
-/

namespace Sys2Proof.Machine

/-- One step. The turn is used up and the operation fetched is performed. A core turn in which no core operation is
enabled (R70: waiting for LOAD, or the run has ended) leaves the rest of the state as it is (R182). -/
def step (s : State) : Host.Outcome State Fault Refusal :=
  match s.fetch with
  | some i => exec i s.advance
  | none => .next s.advance

/-- `s` with the operation of a table word placed so that the next step performs it; unchanged for a word that is none. -/
def State.withFetchWord (s : State) (nbits w : Nat) : State :=
  match decodeTableWord nbits w with
  | some i => s.selecting i
  | none => s

end Sys2Proof.Machine
end

