-- ==== Sys2Proof/Machine/Trace.lean ====
section
/-!
DEFINITION. A run trace (30_encoding.md R74 (c)): operations performed one after another, whichever agent performs them.
-/

namespace Sys2Proof.Machine

/-- R74 (c): the state after a list of operations, stopping at the first that is not available. `HASHSTEP x k` is
`List.replicate k .hashstep`. -/
def runTrace : List Instr → State → Host.Outcome State Fault Refusal
  | [], s => .next s
  | i :: is, s =>
    match exec i s with
    | .next t => runTrace is t
    | .fault f => .fault f
    | .refused r => .refused r

end Sys2Proof.Machine
end

