-- ==== Sys2Proof/Safety.lean ====
section
/-!
DEFINITION. What claims about runs are stated in: launch states, the end of a run, and the invariant of the reachable
states (10_state.md R36, 70_reset_and_hazards.md R172, R182).
-/

namespace Sys2Proof.Machine

/-- R60, R64: the count field of a buffer, IBUF[0 .. 8). -/
def InputBuffer.count (b : InputBuffer) : Count := countOfBytes (Vector.ofFn fun j => b.byte j.val)

/-- R60, R65: the seed field of a buffer, IBUF[8 .. 40). -/
def InputBuffer.seed (b : InputBuffer) : Digest := Vector.ofFn fun j => b.byte (8 + j.val)

/-- The ordered writes of a digest's eight words, index 0 first (R127). -/
def outputWrites (d : Digest) : List (Fin 8 × Word) :=
  [0, 1, 2, 3, 4, 5, 6, 7].map fun i => (i, outWord d i)

/-- R8: the core's own operations. -/
def isCoreOp : Instr → Bool
  | .reset => false
  | .load _ => false
  | .rdstatus => false
  | .rdout _ => false
  | .decode => true
  | .hashstep => true
  | .finalize => true
  | .encode => true

/-- R172: a launch state for the buffer `b`: START, bound, nothing written; and no move of the host to come. -/
structure State.Launch (s : State) (b : InputBuffer) : Prop where
  phase : s.phase = .start
  ibuf : s.ibuf = some b
  otrace : s.otrace = []
  turns : s.turns = []

/-- `k` steps of the machine, stopping at the first fault or refusal (`Host.Core.run` of this machine; `runSteps_eq_run`). -/
def runSteps : Nat → State → Host.Outcome State Fault Refusal
  | 0, s => .next s
  | k + 1, s =>
    match step s with
    | .next t => runSteps k t
    | .fault f => .fault f
    | .refused r => .refused r

/-- R140 (d): a turn of the core, or one in which the host only reads. -/
def Turn.coreOrRead : Turn → Bool
  | .core => true
  | .host .rdstatus => true
  | .host (.rdout _) => true
  | .host .reset => false
  | .host (.load _) => false

/-- How many of the next `m` steps are the core's (log entry 5: with no turn pending, all of them). -/
def coreMoves : Nat → List Turn → Nat
  | 0, _ => 0
  | m + 1, [] => coreMoves m [] + 1
  | m + 1, .core :: rest => coreMoves m rest + 1
  | m + 1, .host _ :: rest => coreMoves m rest

/-- R182: the run has ended. -/
def State.ended (s : State) : Prop := s.phase = .done ∨ s.phase = .malformed

/-- R36, for a run on the buffer `b` after DECODE: the count and the chain state are those of the buffer. -/
structure State.OnChain (s : State) (b : InputBuffer) : Prop where
  len : Config.minLen ≤ b.len
  n : s.n = b.count
  le : s.i ≤ s.n
  state : s.state = hashChain s.i.toNat b.seed

/-- R36, by phase. -/
def State.PhaseInv (s : State) : Prop :=
  match s.phase with
  | .start => s.otrace = []
  | .seeded => ∃ b, s.ibuf = some b ∧ s.OnChain b ∧ s.otrace = []
  | .finalized => ∃ b, s.ibuf = some b ∧ s.OnChain b ∧ s.i = s.n ∧ s.otrace = []
  | .done =>
    ∃ b, s.ibuf = some b ∧ s.OnChain b ∧ s.i = s.n ∧ s.out = outWords s.state ∧ s.otrace = outputWrites s.state
  | .malformed => ∃ b, s.ibuf = some b ∧ b.len < Config.minLen ∧ s.otrace = []

/-- The invariant of the machine: R36, the canonical form of the bound buffer's bytes, and that what OTRACE records has
reached the sink (R33, R136). -/
structure State.Inv (s : State) : Prop where
  phase : s.PhaseInv
  buffer : ∀ b, s.ibuf = some b → b.wf = true
  sink : ∃ before, s.sinkRx = before ++ s.otrace

end Sys2Proof.Machine
end

