-- ==== Sys2Proof/Certificates/Slice0/Obligations.lean ====
section
/-!
DEFINITION. The statements about the model, each from the rules of spec/ that its docstring names.
-/

open Sys2Proof Sys2Proof.Machine

/-! ### Reset, STATUS and the host's operations -/

/-- The values R34 states for the state after RESET. -/
def Obligations.ResetStateValues : Prop :=
  State.reset.phase = .start ∧ State.reset.ibuf = none ∧ State.reset.len = none ∧
    State.reset.otrace = [] ∧ State.reset.status = 0x00000000

/-- R29: every field of STATUS, that it is a view of PHASE and of IBUF being bound alone, and its value at reset. -/
def Obligations.StatusFields : Prop :=
  (∀ s : State,
    s.status.extractLsb' 0 3 = s.phase.code ∧
    s.phase.code.toNat =
      (match s.phase with | .start => 0 | .seeded => 1 | .finalized => 2 | .done => 3 | .malformed => 4) ∧
    (s.status.getLsbD 3 = true ↔ s.phase = .done) ∧
    (s.status.extractLsb' 4 4).toNat = (if s.phase = .malformed then 1 else 0) ∧
    (s.status.getLsbD 8 = true ↔ ∃ b, s.ibuf = some b) ∧
    (∀ k, 9 ≤ k → s.status.getLsbD k = false)) ∧
  (∀ s t : State, s.phase = t.phase → s.ibuf.isSome = t.ibuf.isSome → s.status = t.status) ∧
  State.reset.status = 0x00000000

/-- R136: RESET answers in every state, with PHASE START, IBUF unbound, OTRACE empty and STATUS zero. What the host and the
sink have already received stands (log entry 19). Of N, I, STATE and OUT, left undefined, nothing is said. -/
def Obligations.ResetCompletes : Prop :=
  ∀ s : State, ∃ t, exec .reset s = .next t ∧ t.phase = .start ∧ t.ibuf = none ∧ t.len = none ∧ t.otrace = [] ∧
    t.status = 0x00000000 ∧ t.turns = s.turns ∧ t.replies = s.replies ∧ t.sinkRx = s.sinkRx

/-- R171: nothing of the old run survives RESET: two states that agree on the model's own fields have the same successor
(the free values depend on the model's draws, log entry 2). -/
def Obligations.ResetForgetsTheRun : Prop :=
  ∀ s s' : State, s.turns = s'.turns → s.replies = s'.replies → s.sinkRx = s'.sinkRx → s.draws = s'.draws →
    exec .reset s = exec .reset s'

/-- R137: in START with no buffer bound LOAD binds any buffer that can be presented, short and empty ones included: LEN is
its length, offset k holds its byte k, PHASE stays START, STATUS reads 0x00000100, and nothing else changes. In any other
state LOAD is not available. -/
def Obligations.LoadBindsBuffer : Prop :=
  (∀ (s : State) (buf : List Byte), s.phase = .start → s.ibuf = none → (Instr.load buf).wellFormed = true →
    ∃ (b : InputBuffer) (t : State), t = { s with ibuf := some b } ∧ exec (.load buf) s = .next t ∧
      t.len = some buf.length ∧ (∀ (k : Nat) (h : k < buf.length), memRead k 1 t = .ok #v[buf[k]]) ∧
      t.status = 0x00000100) ∧
  (∀ (s t : State) (buf : List Byte), exec (.load buf) s = .next t → s.phase = .start ∧ s.ibuf = none)

/-- A bound buffer's bytes are in the canonical form of log entry 12 (the model's representation). -/
def Obligations.BoundBufferCanonical : Prop :=
  ∀ (s t : State) (buf : List Byte), exec (.load buf) s = .next t → ∃ b, t.ibuf = some b ∧ b.wf = true

/-- U6: where LOAD is not available it is refused by name (the model's choice, log entry 8). -/
def Obligations.LoadRefusedElsewhere : Prop :=
  ∀ (s : State) (buf : List Byte), ¬ (s.phase = .start ∧ s.ibuf = none) →
    exec (.load buf) s = .refused .loadNotAvailable

/-- R138: RDSTATUS always answers, hands the host STATUS and changes nothing else (the record of replies is the model's,
log entry 4); in states that meet the invariant STATUS is one of the six values R138 lists. -/
def Obligations.RdstatusReturnsStatus : Prop :=
  (∀ s : State, exec .rdstatus s = .next { s with replies := s.replies ++ [.status s.status] }) ∧
  (∀ s : State, s.Inv →
    s.status = (match s.phase with
      | .start => if s.ibuf = none then 0x00000000 else 0x00000100
      | .seeded => 0x00000101
      | .finalized => 0x00000102
      | .done => 0x0000010b
      | .malformed => 0x00000114))

/-- R139: in DONE, RDOUT i hands the host OUT[i] and changes nothing else (the record of replies is the model's, log entry
4). -/
def Obligations.RdoutInDone : Prop :=
  ∀ (s : State) (k : Fin 8), s.phase = .done →
    exec (.rdout k) s = .next { s with replies := s.replies ++ [.out k s.out[k.val]] }

/-- R139, R35: in any other phase RDOUT still answers, with some word, and changes nothing of the core; that the word is a
free value that uses up a draw is the model's choice (log entry 3), and so is the record of replies (log entry 4). -/
def Obligations.RdoutOutsideDone : Prop :=
  ∀ (s : State) (k : Fin 8), s.phase ≠ .done →
    ∃ w, exec (.rdout k) s = .next { s with replies := s.replies ++ [.out k w], draws := s.draws + 1 }

/-- R139: the host cannot read N, I or STATE: what its reads hand it is the same whatever these hold. Outside DONE R35 leaves
RDOUT's word unspecified, even from one read to the next; that both reads hand over the same word there is the model's
(log entry 3: the word is the draw's, and a draw depends on the counter alone). -/
def Obligations.HostReadsHideTheChain : Prop :=
  ∀ (s : State) (n i : Count) (d : Digest) (op : Instr), (op = .rdstatus ∨ ∃ k, op = .rdout k) →
    ∃ t, exec op s = .next t ∧
      exec op { s with n := n, i := i, state := d } = .next { t with n := n, i := i, state := d }

/-- Frame of the host's operations (R20's "written by" column, R138, R139): RDSTATUS and RDOUT change no element of the
core and no byte of the buffer; LOAD changes IBUF alone, and no offset outside the bound buffer becomes readable; RESET
leaves what was received and the moves still to come (log entry 19), and no offset is readable after it. The records are the
model's: what the host read (log entry 4), the turns (log entry 5), what the sink received (log entry 6); and that a read
outside the bound buffer is the fault `outsideBuffer` is the model's too (log entry 20). -/
def Obligations.HostOperationFrames : Prop :=
  (∀ s t : State, (exec .rdstatus s = .next t ∨ ∃ k, exec (.rdout k) s = .next t) →
    t.phase = s.phase ∧ t.ibuf = s.ibuf ∧ t.len = s.len ∧ t.n = s.n ∧ t.i = s.i ∧ t.state = s.state ∧ t.out = s.out ∧
      t.otrace = s.otrace ∧ t.status = s.status ∧ t.turns = s.turns ∧ t.sinkRx = s.sinkRx ∧
      ∀ a, memRead a 1 t = memRead a 1 s) ∧
  (∀ (s t : State) (buf : List Byte), exec (.load buf) s = .next t →
    t.phase = s.phase ∧ t.n = s.n ∧ t.i = s.i ∧ t.state = s.state ∧ t.out = s.out ∧ t.otrace = s.otrace ∧
      t.turns = s.turns ∧ t.replies = s.replies ∧ t.sinkRx = s.sinkRx ∧ t.draws = s.draws ∧
      ∀ a, buf.length ≤ a → memRead a 1 t = memRead a 1 s) ∧
  (∀ s t : State, exec .reset s = .next t →
    t.turns = s.turns ∧ t.replies = s.replies ∧ t.sinkRx = s.sinkRx ∧ ∀ a, memRead a 1 t = .error .outsideBuffer)

/-! ### DECODE -/

/-- R80, R81, R82: DECODE is available exactly in START with a buffer bound, and then the only core operation
that is. Below 40 bytes it writes PHASE alone; from 40
bytes on it writes N, I, STATE and PHASE and nothing else, whatever the content. -/
def Obligations.DecodeAsSpecified : Prop :=
  (∀ (s : State) (b : InputBuffer), s.phase = .start → s.ibuf = some b → b.len < 40 →
    exec .decode s = .next { s with phase := .malformed }) ∧
  (∀ (s : State) (b : InputBuffer), s.phase = .start → s.ibuf = some b → 40 ≤ b.len →
    ∃ (n : Count) (seed : Digest),
      exec .decode s = .next { s with n := n, i := 0, state := seed, phase := .seeded } ∧
      n.toNat = le ((List.range 8).map b.byte) ∧ seed.toList = (List.range' 8 32).map b.byte) ∧
  (∀ s t : State, exec .decode s = .next t →
    (∀ i u, isCoreOp i = true → exec i s = .next u → i = .decode) ∧ s.phase = .start ∧ ∃ b, s.ibuf = some b)

/-- R43, R64: the byte at offset k is bits 8k+7 to 8k of the count, and the count is the sum of the bytes weighted so. -/
def Obligations.CountIsLittleEndian : Prop :=
  ∀ (s t : State) (b : InputBuffer), s.ibuf = some b → 40 ≤ b.len → exec .decode s = .next t →
    (∀ k : Nat, k < 8 → t.n.extractLsb' (8 * k) 8 = b.byte k) ∧
    t.n.toNat = (b.byte 0).toNat + (b.byte 1).toNat * 2 ^ 8 + (b.byte 2).toNat * 2 ^ 16 + (b.byte 3).toNat * 2 ^ 24 +
      (b.byte 4).toNat * 2 ^ 32 + (b.byte 5).toNat * 2 ^ 40 + (b.byte 6).toNat * 2 ^ 48 + (b.byte 7).toNat * 2 ^ 56

/-- R65: byte j of the seed is the byte at offset 8 + j, in buffer order. -/
def Obligations.SeedIsCopiedInOrder : Prop :=
  ∀ (s t : State) (b : InputBuffer), s.ibuf = some b → 40 ≤ b.len → exec .decode s = .next t →
    ∀ (j : Nat) (h : j < 32), t.state[j] = b.byte (8 + j)

/-- R83: LOAD and then DECODE is the decoder function of the presented bytes. -/
def Obligations.DecodeIsTheDecoderFunction : Prop :=
  ∀ (s : State) (buf : List Byte), s.phase = .start → s.ibuf = none → (Instr.load buf).wellFormed = true →
    ∃ t, runTrace [.load buf, .decode] s = .next t ∧
      (match decodeBuffer buf with
        | none => t.phase = .malformed ∧ t.n = s.n ∧ t.i = s.i ∧ t.state = s.state
        | some (n, seed) => t.phase = .seeded ∧ t.n = n ∧ t.i = 0 ∧ t.state = seed) ∧
      t.out = s.out ∧ t.otrace = s.otrace

/-- R85: two buffers of at least 40 bytes decode alike exactly when they agree on bytes 0 to 39. -/
def Obligations.DecodeInjectiveOnFirst40 : Prop :=
  ∀ a b : List Byte, 40 ≤ a.length → 40 ≤ b.length → (decodeBuffer a = decodeBuffer b ↔ a.take 40 = b.take 40)

/-- R74, R60, R67: a job's buffer decodes to the job's count and seed, and every legal buffer is one job's. -/
def Obligations.JobRoundTrip : Prop :=
  (∀ j : Job, decodeBuffer j.encode = some (j.n, j.seed)) ∧
  (∀ buf : List Byte, 40 ≤ buf.length → ∃ j : Job, j.encode = buf ∧ ∀ j' : Job, j'.encode = buf → j' = j)

/-- R151: MalformedInput is raised by DECODE only, exactly when LEN is below 40, with cause code 1 in STATUS.ERR. -/
def Obligations.MalformedInputCause : Prop :=
  (∀ (i : Instr) (s t : State), exec i s = .next t → s.phase ≠ .malformed → t.phase = .malformed → i = .decode) ∧
  (∀ (s t : State), exec .decode s = .next t →
    ∃ b, s.ibuf = some b ∧ (t.phase = .malformed ↔ b.len < 40) ∧
      (t.status.extractLsb' 4 4 = 1 ↔ b.len < 40) ∧ (t.status.extractLsb' 4 4 = 0 ↔ 40 ≤ b.len))

/-- R154: on MalformedInput the hardware changes PHASE and nothing else, and the host sees STATUS 0x00000114. -/
def Obligations.MalformedInputEntry : Prop :=
  ∀ (s : State) (b : InputBuffer), s.phase = .start → s.ibuf = some b → b.len < 40 →
    ∃ t, exec .decode s = .next t ∧ t = { s with phase := .malformed } ∧ t.status = 0x00000114

/-- R155: in MALFORMED no core operation is enabled, only RESET leaves it, and RESET and LOAD of a short buffer lead there
again. -/
def Obligations.MalformedIsTerminal : Prop :=
  ∀ s : State, s.phase = .malformed →
    (∀ i, isCoreOp i = true → ∀ t, exec i s ≠ .next t) ∧
    (∀ i t, exec i s = .next t → t.phase ≠ .malformed → i = .reset) ∧
    (∀ buf : List Byte, buf.length < 40 → (Instr.load buf).wellFormed = true →
      ∃ t, runTrace [.reset, .load buf, .decode] s = .next t ∧ t.phase = .malformed)

/-! ### HASHSTEP, FINALIZE and the chain -/

/-- R110: HASHSTEP is available exactly in SEEDED with I below N, and then the only core operation that is; it replaces STATE by its hash and adds 1 to I, with no
wrap, and changes nothing else. -/
def Obligations.HashstepAsSpecified : Prop :=
  (∀ s : State, s.phase = .seeded → s.i < s.n →
    ∃ t, exec .hashstep s = .next t ∧ t = { s with state := hash256 s.state, i := t.i } ∧
      t.i.toNat = s.i.toNat + 1) ∧
  (∀ s t : State, exec .hashstep s = .next t →
    (∀ i u, isCoreOp i = true → exec i s = .next u → i = .hashstep) ∧ s.phase = .seeded ∧ s.i < s.n)

/-- R111: FINALIZE is available exactly in SEEDED with I equal to N, and then the only core operation that is; it writes PHASE alone. -/
def Obligations.FinalizeAsSpecified : Prop :=
  (∀ s : State, s.phase = .seeded → s.i = s.n → exec .finalize s = .next { s with phase := .finalized }) ∧
  (∀ s t : State, exec .finalize s = .next t →
    (∀ i u, isCoreOp i = true → exec i s = .next u → i = .finalize) ∧ s.phase = .seeded ∧ s.i = s.n)

/-- R118: while I is at most N, the distance N - I falls by exactly 1 at each HASHSTEP and I stays at most N. -/
def Obligations.HashstepCountsDown : Prop :=
  ∀ s t : State, exec .hashstep s = .next t →
    t.i.toNat ≤ t.n.toNat ∧ t.n = s.n ∧ t.n.toNat - t.i.toNat + 1 = s.n.toNat - s.i.toNat

/-- R114, R115: zero iterations is the identity, one more iteration is one more hash, and runs compose (this last the spec's
own inference, R115 "[derived: by induction on k from the quoted law]"). -/
def Obligations.HashChainLaws : Prop :=
  (∀ seed : Digest, hashChain 0 seed = seed) ∧
  (∀ (n : Nat) (seed : Digest), hashChain (n + 1) seed = hash256 (hashChain n seed)) ∧
  (∀ (m k : Nat) (seed : Digest), hashChain (m + k) seed = hashChain k (hashChain m seed))

/-- R112: exactly N HASHSTEPs are performed between DECODE and FINALIZE, whatever the data. -/
def Obligations.ExactlyCountHashsteps : Prop :=
  ∀ (s : State) (b : InputBuffer) (k : Nat), s.phase = .start → s.ibuf = some b → 40 ≤ b.len →
    ((∃ t, runTrace ([.decode] ++ List.replicate k .hashstep ++ [.finalize]) s = .next t) ↔ k = b.count.toNat)

/-! ### Hash256

The algorithm is the spec's passage from general knowledge, not its source's (log entry 13, PRESUMED): every statement here
rests on that entry. -/

/-- R92: the word operations as the rule defines them, with its two examples (log entry 13). -/
def Obligations.WordOperations : Prop :=
  (∀ x y : Word, (x + y).toNat = (x.toNat + y.toNat) % 2 ^ 32) ∧
  (∀ x : Word, ~~~x = x ^^^ 0xffffffff) ∧
  (∀ (k : Nat) (x : Word), 0 < k → k < 32 → (shr k x).toNat = x.toNat / 2 ^ k) ∧
  (∀ (k : Nat) (x : Word), 0 < k → k < 32 →
    rotr k x = shr k x ^^^ BitVec.ofNat 32 ((x.toNat * 2 ^ (32 - k)) % 2 ^ 32)) ∧
  rotr 1 0x80000001 = 0xc0000000 ∧ (0xffffffff : Word) + 0x00000002 = 0x00000001

/-- R96: the padded block: the message, a single 1 bit, zero fill, and the length 256 as a 64-bit big-endian number
(log entry 13). -/
def Obligations.PaddedBlockFormat : Prop :=
  ∀ s : Digest, (paddedBlock s).length = 64 ∧ (paddedBlock s).take 32 = s.toList ∧
    (paddedBlock s)[32]? = some 0x80 ∧ (∀ j, 33 ≤ j → j < 56 → (paddedBlock s)[j]? = some 0x00) ∧
    (paddedBlock s).drop 56 = toBe 8 256

/-- R97: the first sixteen schedule words are the block's big-endian words; the last eight of them are constants (log
entry 13). -/
def Obligations.ScheduleParsesBlock : Prop :=
  ∀ s : Digest, (schedule s).length = 64 ∧
    (∀ t, t < 16 → (schedule s)[t]? = some (BitVec.ofNat 32 (be (((paddedBlock s).drop (4 * t)).take 4)))) ∧
    (∀ t, t < 8 → (schedule s)[t]? = some (BitVec.ofNat 32 (be ((s.toList.drop (4 * t)).take 4)))) ∧
    (schedule s)[8]? = some 0x80000000 ∧ (∀ t, 9 ≤ t → t ≤ 14 → (schedule s)[t]? = some 0x00000000) ∧
    (schedule s)[15]? = some 0x00000100

/-- R98: every later schedule word is the rule's sum of four earlier ones (log entry 13). -/
def Obligations.ScheduleRecurrence : Prop :=
  ∀ (s : Digest) (t : Nat), 16 ≤ t → t < 64 →
    ∃ w2 w7 w15 w16, (schedule s)[t - 2]? = some w2 ∧ (schedule s)[t - 7]? = some w7 ∧
      (schedule s)[t - 15]? = some w15 ∧ (schedule s)[t - 16]? = some w16 ∧
      (schedule s)[t]? = some (ssig1 w2 + w7 + ssig0 w15 + w16)

/-- R93, R94, R95 (log entry 13). Of each function every bit: bit j of ROTR^n(x) is bit (j + n) mod 32 of x, and bit j of
SHR^n(x) is bit j + n, which is 0 above bit 31. Of the constants what defines them: with p the (t+1)-th prime, K[t] is the low
32 bits of X, the greatest integer whose cube is at most p * 2^96, so X = floor(cbrt(p) * 2^32); IV[j] likewise with the
square root. -/
def Obligations.HashFunctionsAndConstants : Prop :=
  (∀ (x y z : Word) (j : Nat), j < 32 →
    (ch x y z).getLsbD j = ((x.getLsbD j && y.getLsbD j) ^^ (!x.getLsbD j && z.getLsbD j)) ∧
    (maj x y z).getLsbD j =
      ((x.getLsbD j && y.getLsbD j) ^^ (x.getLsbD j && z.getLsbD j) ^^ (y.getLsbD j && z.getLsbD j)) ∧
    (bsig0 x).getLsbD j =
      (x.getLsbD ((j + 2) % 32) ^^ x.getLsbD ((j + 13) % 32) ^^ x.getLsbD ((j + 22) % 32)) ∧
    (bsig1 x).getLsbD j =
      (x.getLsbD ((j + 6) % 32) ^^ x.getLsbD ((j + 11) % 32) ^^ x.getLsbD ((j + 25) % 32)) ∧
    (ssig0 x).getLsbD j = (x.getLsbD ((j + 7) % 32) ^^ x.getLsbD ((j + 18) % 32) ^^ x.getLsbD (j + 3)) ∧
    (ssig1 x).getLsbD j = (x.getLsbD ((j + 17) % 32) ^^ x.getLsbD ((j + 19) % 32) ^^ x.getLsbD (j + 10))) ∧
  roundConstants.length = 64 ∧
  (∀ t, t < 64 → ∃ (k : Word) (q : Nat), roundConstants[t]? = some k ∧
    (q * 2 ^ 32 + k.toNat) ^ 3 ≤ Nat.nth Nat.Prime t * 2 ^ 96 ∧
    Nat.nth Nat.Prime t * 2 ^ 96 < (q * 2 ^ 32 + k.toNat + 1) ^ 3) ∧
  (∀ j, j < 8 → ∃ (w : Word) (q : Nat),
    [initialHash.a, initialHash.b, initialHash.c, initialHash.d, initialHash.e, initialHash.f, initialHash.g,
      initialHash.h][j]? = some w ∧
    (q * 2 ^ 32 + w.toNat) ^ 2 ≤ Nat.nth Nat.Prime j * 2 ^ 64 ∧
    Nat.nth Nat.Prime j * 2 ^ 64 < (q * 2 ^ 32 + w.toNat + 1) ^ 2)

/-- R99, R100, R47 (log entry 13): the working variables v go from IV through the 64 rounds, round t with K[t] and W[t], each
round's eight assignments from the values before it; the final hash words are IV plus the variables after round 63; the 32
bytes of a hash are these words, big-endian, so the encoder's words of a hash are its final hash words. -/
def Obligations.HashOutputIsFinalHash : Prop :=
  (∀ s : Digest, ∃ v : Nat → WorkVars,
    v 0 = { a := 0x6a09e667, b := 0xbb67ae85, c := 0x3c6ef372, d := 0xa54ff53a,
            e := 0x510e527f, f := 0x9b05688c, g := 0x1f83d9ab, h := 0x5be0cd19 } ∧
    (∀ t, t < 64 → ∃ k w t1 t2 : Word, roundConstants[t]? = some k ∧ (schedule s)[t]? = some w ∧
      t1 = (v t).h + bsig1 (v t).e + ch (v t).e (v t).f (v t).g + k + w ∧
      t2 = bsig0 (v t).a + maj (v t).a (v t).b (v t).c ∧
      (v (t + 1)).h = (v t).g ∧ (v (t + 1)).g = (v t).f ∧ (v (t + 1)).f = (v t).e ∧ (v (t + 1)).e = (v t).d + t1 ∧
      (v (t + 1)).d = (v t).c ∧ (v (t + 1)).c = (v t).b ∧ (v (t + 1)).b = (v t).a ∧ (v (t + 1)).a = t1 + t2) ∧
    finalHash s = #v[0x6a09e667 + (v 64).a, 0xbb67ae85 + (v 64).b, 0x3c6ef372 + (v 64).c, 0xa54ff53a + (v 64).d,
      0x510e527f + (v 64).e, 0x9b05688c + (v 64).f, 0x1f83d9ab + (v 64).g, 0x5be0cd19 + (v 64).h]) ∧
  (∀ (s : Digest) (j r : Nat) (hj : j < 8) (hr : r < 4),
    (hash256 s)[4 * j + r] = (finalHash s)[j].extractLsb' (24 - 8 * r) 8) ∧
  (∀ s : Digest, outWords (hash256 s) = finalHash s)

/-! ### Byte order and ENCODE -/

/-- R13: `le` and `be` are the rule's sums, and `to_le_k` and `to_be_k` their unique inverses on k bytes. -/
def Obligations.ByteOrderFunctions : Prop :=
  (∀ bs : List Byte, le bs = ∑ j : Fin bs.length, bs[j].toNat * 256 ^ j.val) ∧
  (∀ bs : List Byte, be bs = ∑ j : Fin bs.length, bs[j].toNat * 256 ^ (bs.length - 1 - j.val)) ∧
  (∀ k v : Nat, v < 256 ^ k → ∀ bs : List Byte, (bs.length = k ∧ le bs = v) ↔ bs = toLe k v) ∧
  (∀ k v : Nat, v < 256 ^ k → ∀ bs : List Byte, (bs.length = k ∧ be bs = v) ↔ bs = toBe k v)

/-- R125: ENCODE is available exactly in FINALIZED, and then the only core operation that is; word i is the big-endian reading
of digest bytes 4i to 4i+3, written to OUT[i], and the eight pairs are appended to OTRACE and handed to the sink in index order
(what the sink received is the model's record, log entry 6); PHASE becomes DONE and nothing else of the core changes. -/
def Obligations.EncodeAsSpecified : Prop :=
  (∀ s : State, s.phase = .finalized →
    ∃ (t : State) (writes : List (Fin 8 × Word)), exec .encode s = .next t ∧
      (∀ (k : Nat) (h : k < 8), t.out[k].toNat =
        s.state[4 * k].toNat * 2 ^ 24 + s.state[4 * k + 1].toNat * 2 ^ 16 + s.state[4 * k + 2].toNat * 2 ^ 8 +
          s.state[4 * k + 3].toNat) ∧
      writes = ([(0, t.out[0]), (1, t.out[1]), (2, t.out[2]), (3, t.out[3]), (4, t.out[4]), (5, t.out[5]),
        (6, t.out[6]), (7, t.out[7])] : List (Fin 8 × Word)) ∧
      t = { s with phase := .done, out := t.out, otrace := s.otrace ++ writes, sinkRx := s.sinkRx ++ writes }) ∧
  (∀ s t : State, exec .encode s = .next t →
    (∀ i u, isCoreOp i = true → exec i s = .next u → i = .encode) ∧ s.phase = .finalized)

/-- R129: the eight words written big-endian one after another are the digest again, and digests and word sequences
correspond one to one. -/
def Obligations.EncodingLosesNothing : Prop :=
  (∀ d : Digest, ((outWords d).toList.map fun w => toBe 4 w.toNat).flatten = d.toList) ∧
  Function.Bijective outWords

/-- Frame of the core's operations (R20's "written by" column): each leaves every element it is not said to write, and all
leave every byte of the buffer and the model's turns, replies and draws (log entries 2, 4, 5); the sink's record is the model's
(log entry 6), and so is what an offset outside the bound buffer reads as (log entry 20). -/
def Obligations.CoreOperationFrames : Prop :=
  ∀ (i : Instr) (s t : State), exec i s = .next t → isCoreOp i = true →
    t.ibuf = s.ibuf ∧ t.len = s.len ∧ (∀ a, memRead a 1 t = memRead a 1 s) ∧
    t.turns = s.turns ∧ t.replies = s.replies ∧ t.draws = s.draws ∧
    (i ≠ .decode → t.n = s.n) ∧ (i ≠ .decode → i ≠ .hashstep → t.i = s.i ∧ t.state = s.state) ∧
    (i ≠ .encode → t.out = s.out ∧ t.otrace = s.otrace ∧ t.sinkRx = s.sinkRx) ∧
    (i = .hashstep → t.phase = s.phase)

/-! ### Whole-machine rules -/

/-- R23: PHASE advances by the table's rows and in no other way. -/
def Obligations.PhaseAdvancesByTable : Prop :=
  ∀ (i : Instr) (s t : State), exec i s = .next t →
    (i = .decode ∧ s.phase = .start ∧ t.phase = .seeded ∧ ∃ b, s.ibuf = some b ∧ 40 ≤ b.len) ∨
    (i = .decode ∧ s.phase = .start ∧ t.phase = .malformed ∧ ∃ b, s.ibuf = some b ∧ b.len < 40) ∨
    (i = .hashstep ∧ s.phase = .seeded ∧ t.phase = .seeded ∧ s.i < s.n) ∨
    (i = .finalize ∧ s.phase = .seeded ∧ t.phase = .finalized ∧ s.i = s.n) ∨
    (i = .encode ∧ s.phase = .finalized ∧ t.phase = .done) ∨
    (i = .reset ∧ t.phase = .start) ∨
    ((i = .rdstatus ∨ (∃ k, i = .rdout k) ∨ ∃ buf, i = .load buf) ∧ t.phase = s.phase)

/-- R70: which core operation is enabled in which state; in every state at most one is. -/
def Obligations.OperationMap : Prop :=
  (∀ s : State,
    ((∃ t, exec .decode s = .next t) ↔ s.phase = .start ∧ ∃ b, s.ibuf = some b) ∧
    ((∃ t, exec .hashstep s = .next t) ↔ s.phase = .seeded ∧ s.i < s.n) ∧
    ((∃ t, exec .finalize s = .next t) ↔ s.phase = .seeded ∧ s.i = s.n) ∧
    ((∃ t, exec .encode s = .next t) ↔ s.phase = .finalized)) ∧
  (∀ (s t t' : State) (i j : Instr), exec i s = .next t → exec j s = .next t' →
    isCoreOp i = true → isCoreOp j = true → i = j)

/-- R20, "written by": which operations change each element (the sink's record is the model's, log entry 6). -/
def Obligations.WritersOfEachElement : Prop :=
  ∀ (i : Instr) (s t : State), exec i s = .next t →
    (t.ibuf ≠ s.ibuf → i = .reset ∨ ∃ buf, i = .load buf) ∧
    (t.n ≠ s.n → i = .reset ∨ i = .decode) ∧
    (t.i ≠ s.i → i = .reset ∨ i = .decode ∨ i = .hashstep) ∧
    (t.state ≠ s.state → i = .reset ∨ i = .decode ∨ i = .hashstep) ∧
    (t.out ≠ s.out → i = .reset ∨ i = .encode) ∧
    (t.otrace ≠ s.otrace → i = .reset ∨ i = .encode) ∧
    (t.sinkRx ≠ s.sinkRx → i = .encode)

/-- R128, R182: in DONE and in MALFORMED no operation but RESET changes any element of the core, or the sink's record, which is
the model's (log entry 6). -/
def Obligations.EndedStateKept : Prop :=
  ∀ (i : Instr) (s t : State), s.ended → exec i s = .next t → i ≠ .reset →
    t.phase = s.phase ∧ t.ibuf = s.ibuf ∧ t.n = s.n ∧ t.i = s.i ∧ t.state = s.state ∧ t.out = s.out ∧
      t.otrace = s.otrace ∧ t.sinkRx = s.sinkRx

/-- R150, R101: nothing faults; a step stops only where the host asks for a LOAD that is not available (log entries 5, 8
and 9). -/
def Obligations.NoStepFaults : Prop :=
  (∀ (s : State) (f : Fault), step s ≠ .fault f) ∧
  (∀ (s : State) (r : Refusal), step s = .refused r →
    ∃ buf rest, s.turns = .host (.load buf) :: rest ∧
      (¬ (s.phase = .start ∧ s.ibuf = none) ∨ (Instr.load buf).wellFormed = false))

/-- R136: every step only adds to what the sink has received, and nothing recalls it (the record is the model's, log
entry 6). -/
def Obligations.SinkWritesAreNeverRecalled : Prop :=
  ∀ s t : State, step s = .next t → ∃ new, t.sinkRx = s.sinkRx ++ new

/-! ### The step -/

/-- On the host's turn a step is the host's move, with the turn used up (log entry 5). -/
def Obligations.StepPerformsHostMove : Prop :=
  ∀ (s : State) (op : HostOp) (rest : List Turn), s.turns = .host op :: rest →
    step s = exec (match op with
      | .reset => .reset
      | .load buf => .load buf
      | .rdstatus => .rdstatus
      | .rdout k => .rdout k) { s with turns := rest }

/-- On the core's turn, or when no turn is pending, a step is the operation that R70's table and the decoder select, with the
turn used up. That the core moves when no turn is pending and that a step uses up the turn is the model's (log entry 5), and so
is the byte form of the selector (log entry 1). -/
def Obligations.StepPerformsSelectedOperation : Prop :=
  ∀ s : State, (s.turns = [] ∨ ∃ rest, s.turns = .core :: rest) →
    (∀ i, decodeBytes [s.selector] = .ok i → step s = exec i { s with turns := s.turns.tail }) ∧
    (s.phase = .start → s.ibuf ≠ none → step s = exec .decode { s with turns := s.turns.tail }) ∧
    (s.phase = .seeded → s.i < s.n → step s = exec .hashstep { s with turns := s.turns.tail }) ∧
    (s.phase = .seeded → s.i = s.n → step s = exec .finalize { s with turns := s.turns.tail }) ∧
    (s.phase = .finalized → step s = exec .encode { s with turns := s.turns.tail })

/-- R70, R182: on the core's turn with no operation enabled (waiting for LOAD, or the run ended) the state stays as it is
(log entry 7), but for the turn used up (log entry 5). -/
def Obligations.IdleStepKeepsState : Prop :=
  ∀ s : State, (s.turns = [] ∨ ∃ rest, s.turns = .core :: rest) →
    (s.phase = .start ∧ s.ibuf = none) ∨ s.ended → step s = .next { s with turns := s.turns.tail }

/-- R182, R183, R140 (d): in a state that meets the invariant, with a buffer bound and the run not ended, a step on the core's
turn succeeds and moves on, and a step on the turn of a host read succeeds and leaves the run where it is (the order of turns
is the model's, log entry 5). -/
def Obligations.BoundRunProgresses : Prop :=
  ∀ s : State, s.Inv → s.ibuf ≠ none → ¬ s.ended →
    ((s.turns = [] ∨ ∃ rest, s.turns = .core :: rest) →
      ∃ t, step s = .next t ∧ (t.phase ≠ s.phase ∨ t.i.toNat = s.i.toNat + 1)) ∧
    (∀ op rest, s.turns = .host op :: rest → (op = .rdstatus ∨ ∃ k, op = .rdout k) →
      ∃ t, step s = .next t ∧ t = { s with turns := rest, replies := t.replies, draws := t.draws })

/-! ### The invariant and whole runs -/

/-- R36 holds in the state after reset. -/
def Obligations.ResetMeetsInvariant : Prop := State.reset.Inv

/-- R36: every step of either agent, from any state that meets the invariant, gives a state that meets it. -/
def Obligations.StepKeepsInvariant : Prop :=
  ∀ s t : State, s.Inv → step s = .next t → t.Inv

/-- R56: a host that reads DONE has the run's words in OUT and OTRACE; one that reads ERR knows no write was made. -/
def Obligations.StatusTellsTheOutcome : Prop :=
  ∀ s : State, s.Inv →
    (s.status.getLsbD 3 = true → s.out = outWords s.state ∧ s.otrace = outputWrites s.state ∧
      s.state = hashChain s.n.toNat (s.ibuf.getD { len := 0, cells := [] }).seed) ∧
    (s.status.extractLsb' 4 4 = 1 → s.otrace = [])

/-- R113, R26: k + 1 steps after launch, with no host move to come (log entry 5), the loop has done k iterations: I is k and STATE is Digest_k; the rest is as it
was. -/
def Obligations.LoopHoldsDigest : Prop :=
  ∀ (s : State) (b : InputBuffer) (k : Nat), s.Launch b → 40 ≤ b.len → k ≤ b.count.toNat →
    runSteps (k + 1) s = .next
      { s with n := b.count, i := BitVec.ofNat 64 k, state := hashChain k b.seed, phase := .seeded }

/-- R183, R75: from launch with a well-formed buffer and no host move to come (log entry 5) the core runs N + 3 operations, no
fewer, to DONE with the eight words of HashChain(N, seed) in OUT, OTRACE and the sink (log entry 6). `RunWithHostReads` is the
form with host reads between the core's operations. -/
def Obligations.RunComputesTheChain : Prop :=
  ∀ (s : State) (b : InputBuffer), s.Launch b → 40 ≤ b.len →
    (∀ k, k < b.count.toNat + 3 → ∃ u, runSteps k s = .next u ∧ ¬ u.ended) ∧
    runSteps (b.count.toNat + 3) s = .next
      { s with
        phase := .done
        n := b.count
        i := b.count
        state := hashChain b.count.toNat b.seed
        out := outWords (hashChain b.count.toNat b.seed)
        otrace := outputWrites (hashChain b.count.toNat b.seed)
        sinkRx := s.sinkRx ++ outputWrites (hashChain b.count.toNat b.seed) }

/-- R183, R156: from launch with a short buffer and no host move to come (log entry 5) the core performs one operation, to MALFORMED, and stays there with no
write made. -/
def Obligations.ShortRunEndsMalformed : Prop :=
  ∀ (s : State) (b : InputBuffer) (k : Nat), s.Launch b → b.len < 40 →
    runSteps (k + 1) s = .next { s with phase := .malformed }

/-- R130: with N = 0 the output words are the seed's, big-endian from the buffer's own bytes (the spec's own inference, "for
the general formula"), in a run with no host move to come (log entry 5). -/
def Obligations.ZeroCountOutputsSeed : Prop :=
  ∀ (s : State) (b : InputBuffer), s.Launch b → 40 ≤ b.len → (∀ k, k < 8 → b.byte k = 0) →
    ∃ t, runSteps 3 s = .next t ∧ t.phase = .done ∧
      (∀ (j : Nat) (h : j < 8), t.out[j].toNat =
        be [b.byte (8 + 4 * j), b.byte (8 + 4 * j + 1), b.byte (8 + 4 * j + 2), b.byte (8 + 4 * j + 3)]) ∧
      ((∀ k, 8 ≤ k → k < 40 → b.byte k = 0) → ∀ (j : Nat) (h : j < 8), t.out[j] = 0)

/-- R116: two runs whose buffers agree on bytes 0 to 39, with no host move to come (log entry 5), end with equal STATE, OUT and
OTRACE, whatever came before each. `RunWithHostReads` is the form with host reads between the core's operations. -/
def Obligations.RunDependsOnFirst40Bytes : Prop :=
  ∀ (s s' : State) (b b' : InputBuffer), s.Launch b → s'.Launch b' → 40 ≤ b.len → 40 ≤ b'.len →
    (∀ k, k < 40 → b.byte k = b'.byte k) →
    ∃ (m : Nat) (t t' : State), runSteps m s = .next t ∧ runSteps m s' = .next t' ∧
      t.phase = .done ∧ t'.phase = .done ∧ t.state = t'.state ∧ t.out = t'.out ∧ t.otrace = t'.otrace

/-- R63 (the spec's own inference, its decision D17): the tail is ignored: with no host move to come (log entry 5), replacing
the buffer by one that agrees on bytes 0 to 39 changes no step of the core but for the buffer itself. -/
def Obligations.TailIsIgnored : Prop :=
  ∀ (s t : State) (b b' : InputBuffer) (k : Nat), s.turns = [] → s.ibuf = some b → 40 ≤ b.len → 40 ≤ b'.len →
    (∀ j, j < 40 → b.byte j = b'.byte j) → runSteps k s = .next t →
    runSteps k { s with ibuf := some b' } = .next { t with ibuf := some b' }

/-- R135, R140 (d), R116: host reads between the core's operations disturb nothing (the order of turns is the model's, log
entry 5). Over turns made of core turns and host reads alone, every run completes and agrees, but for the model's turns,
replies and draws, with the run in which the core makes as many moves alone; from launch the run has ended exactly when the
core has made N + 3 moves, and it has then ended in DONE with the words of HashChain(N, seed); and two such runs on buffers that
agree on bytes 0 to 39 end with equal STATE, OUT and OTRACE. -/
def Obligations.RunWithHostReads : Prop :=
  (∀ (s : State) (m : Nat), s.turns.all Turn.coreOrRead = true →
    ∃ t u, runSteps m s = .next t ∧ runSteps (coreMoves m s.turns) { s with turns := [] } = .next u ∧
      t = { u with turns := s.turns.drop m, replies := t.replies, draws := t.draws }) ∧
  (∀ (s : State) (b : InputBuffer) (m : Nat), s.turns.all Turn.coreOrRead = true →
    State.Launch { s with turns := [] } b → 40 ≤ b.len →
    ∃ t, runSteps m s = .next t ∧ (t.ended ↔ b.count.toNat + 3 ≤ coreMoves m s.turns) ∧
      (t.ended → t.phase = .done ∧ t.n = b.count ∧ t.i = b.count ∧ t.state = hashChain b.count.toNat b.seed ∧
        t.out = outWords (hashChain b.count.toNat b.seed) ∧ t.otrace = outputWrites (hashChain b.count.toNat b.seed) ∧
        t.sinkRx = s.sinkRx ++ outputWrites (hashChain b.count.toNat b.seed))) ∧
  (∀ (s s' : State) (b b' : InputBuffer) (m m' : Nat), s.turns.all Turn.coreOrRead = true →
    s'.turns.all Turn.coreOrRead = true → State.Launch { s with turns := [] } b → State.Launch { s' with turns := [] } b' →
    40 ≤ b.len → 40 ≤ b'.len → (∀ k, k < 40 → b.byte k = b'.byte k) →
    b.count.toNat + 3 ≤ coreMoves m s.turns → b'.count.toNat + 3 ≤ coreMoves m' s'.turns →
    ∃ t t', runSteps m s = .next t ∧ runSteps m' s' = .next t' ∧
      t.phase = .done ∧ t'.phase = .done ∧ t.state = t'.state ∧ t.out = t'.out ∧ t.otrace = t'.otrace)

/-! ### Encodings -/

/-- The decoder reads every well-formed operation back from its encoding, with every operand (host transaction bytes are
the model's, log entry 1). -/
def Obligations.DecodeOfEncode : Prop := ∀ i : Instr, i.wellFormed = true → decodeBytes (Sys2Proof.encode i) = .ok i

/-- R69, R71: a selector byte names a core operation only under that operation's row: its PHASE code, and its condition. -/
def Obligations.SelectorMatchesTable : Prop :=
  ∀ (w : Byte) (i : Instr), w.getLsbD 7 = false → decodeBytes [w] = .ok i →
    (i = .decode ∧ w.extractLsb' 0 3 = 0 ∧ w.getLsbD 3 = false) ∨
    (i = .hashstep ∧ w.extractLsb' 0 3 = 1 ∧ w.extractLsb' 4 2 = 0) ∨
    (i = .finalize ∧ w.extractLsb' 0 3 = 1 ∧ w.extractLsb' 4 2 = 1) ∨
    (i = .encode ∧ w.extractLsb' 0 3 = 2)

/-- R69, R70: the codes of DECODE, HASHSTEP and ENCODE, of the phases with no operation, and of the reserved phases. -/
def Obligations.SelectorSanity : Prop :=
  decodeTableWord 8 0 = some .decode ∧ decodeTableWord 8 1 = some .hashstep ∧ decodeTableWord 8 2 = some .encode ∧
    decodeTableWord 8 3 = none ∧ decodeTableWord 8 4 = none ∧ decodeTableWord 8 5 = none ∧
    decodeTableWord 8 6 = none ∧ decodeTableWord 8 7 = none

/-- A table word placed by `withFetchWord` is what the next step performs (the model's placement, log entry 15), with
the turn used up (log entry 5). -/
def Obligations.PlacedWordRunsNext : Prop :=
  ∀ (s : State) (nbits w : Nat) (i : Instr), decodeTableWord nbits w = some i →
    step (s.withFetchWord nbits w) = exec i { s.withFetchWord nbits w with turns := s.turns } ∧
      (i.wellFormed = true → ∃ t, step (s.withFetchWord nbits w) = .next t)
end

