-- ==== Sys2Proof/Laws/Bytes.lean ====
section
/-!
SUPPORT. The byte-order functions of R13 and their inverses.
-/

namespace Sys2Proof

@[simp] theorem le_nil : le [] = 0 := rfl

@[simp] theorem le_cons (b : Byte) (bs : List Byte) : le (b :: bs) = b.toNat + 256 * le bs := rfl

@[simp] theorem toLe_length (k v : Nat) : (toLe k v).length = k := by
  induction k generalizing v with
  | zero => rfl
  | succ k ih => simp [toLe, ih]

/-- R13: `le(to_le_k(v)) = v` for `v < 256^k`. -/
theorem le_toLe (k v : Nat) (h : v < 256 ^ k) : le (toLe k v) = v := by
  induction k generalizing v with
  | zero => simp at h; simp [toLe, h]
  | succ k ih =>
    have hk : v / 256 < 256 ^ k := Nat.div_lt_of_lt_mul (by rwa [pow_succ, mul_comm] at h)
    simp only [toLe, le_cons, ih _ hk, BitVec.toNat_ofNat]
    omega

/-- R13: a `k`-byte value is below `256^k`. -/
theorem le_lt (bs : List Byte) : le bs < 256 ^ bs.length := by
  induction bs with
  | nil => simp
  | cons b bs ih =>
    have := b.isLt
    simp only [le_cons, List.length_cons, pow_succ]
    omega

/-- R13: `to_le_k(le(b)) = b` for `k` bytes. -/
theorem toLe_le (bs : List Byte) : toLe bs.length (le bs) = bs := by
  induction bs with
  | nil => rfl
  | cons b bs ih =>
    have hb := b.isLt
    have hd : (b.toNat + 256 * le bs) / 256 = le bs := by omega
    simp only [List.length_cons, le_cons, toLe, hd, ih, List.cons.injEq, and_true]
    apply BitVec.eq_of_toNat_eq
    simp only [BitVec.toNat_ofNat]
    omega

/-- R13, R64: the eight bytes of a count. -/
@[simp] theorem le_toLe_count (n : Count) : le (toLe 8 n.toNat) = n.toNat := by
  have h := n.isLt
  exact le_toLe 8 n.toNat (by norm_num at h ⊢; exact h)

/-- R64: eight bytes are a 64-bit number. -/
theorem le_lt_count {bs : List Byte} (hl : bs.length = 8) : le bs < 2 ^ 64 := by
  have h := le_lt bs
  rw [hl] at h
  norm_num at h ⊢
  exact h

/-- R13: byte sequences of one length with the same `le` are the same. -/
theorem le_injective {as bs : List Byte} (hl : as.length = bs.length) (h : le as = le bs) : as = bs := by
  rw [← toLe_le as, ← toLe_le bs, hl, h]

/-- R13, R66: four bytes read big-endian. -/
theorem be_four (b0 b1 b2 b3 : Byte) :
    be [b0, b1, b2, b3] = b0.toNat * 2 ^ 24 + b1.toNat * 2 ^ 16 + b2.toNat * 2 ^ 8 + b3.toNat := by
  simp [be]
  omega

end Sys2Proof
end

