-- ==== Sys2Proof/Laws/State.lean ====
section
/-!
SUPPORT. One lemma per field per named update of the state, each true by rfl.
-/

namespace Sys2Proof.Machine

/-! ### raiseMalformedInput -/

@[simp] theorem raiseMalformedInput_phase (s : State) : (raiseMalformedInput s).phase = .malformed := rfl

@[simp] theorem raiseMalformedInput_ibuf (s : State) : (raiseMalformedInput s).ibuf = s.ibuf := rfl

@[simp] theorem raiseMalformedInput_n (s : State) : (raiseMalformedInput s).n = s.n := rfl

@[simp] theorem raiseMalformedInput_i (s : State) : (raiseMalformedInput s).i = s.i := rfl

@[simp] theorem raiseMalformedInput_state (s : State) : (raiseMalformedInput s).state = s.state := rfl

@[simp] theorem raiseMalformedInput_out (s : State) : (raiseMalformedInput s).out = s.out := rfl

@[simp] theorem raiseMalformedInput_otrace (s : State) : (raiseMalformedInput s).otrace = s.otrace := rfl

@[simp] theorem raiseMalformedInput_turns (s : State) : (raiseMalformedInput s).turns = s.turns := rfl

@[simp] theorem raiseMalformedInput_replies (s : State) : (raiseMalformedInput s).replies = s.replies := rfl

@[simp] theorem raiseMalformedInput_sinkRx (s : State) : (raiseMalformedInput s).sinkRx = s.sinkRx := rfl

@[simp] theorem raiseMalformedInput_draws (s : State) : (raiseMalformedInput s).draws = s.draws := rfl

/-! ### memWrite -/

@[simp] theorem memWrite_phase (k : Fin 8) (v : Word) (s : State) : (memWrite k v s).phase = s.phase := rfl

@[simp] theorem memWrite_ibuf (k : Fin 8) (v : Word) (s : State) : (memWrite k v s).ibuf = s.ibuf := rfl

@[simp] theorem memWrite_n (k : Fin 8) (v : Word) (s : State) : (memWrite k v s).n = s.n := rfl

@[simp] theorem memWrite_i (k : Fin 8) (v : Word) (s : State) : (memWrite k v s).i = s.i := rfl

@[simp] theorem memWrite_state (k : Fin 8) (v : Word) (s : State) : (memWrite k v s).state = s.state := rfl

@[simp] theorem memWrite_out (k : Fin 8) (v : Word) (s : State) : (memWrite k v s).out = s.out.set k.val v := rfl

@[simp] theorem memWrite_otrace (k : Fin 8) (v : Word) (s : State) : (memWrite k v s).otrace = s.otrace ++ [(k, v)] := rfl

@[simp] theorem memWrite_turns (k : Fin 8) (v : Word) (s : State) : (memWrite k v s).turns = s.turns := rfl

@[simp] theorem memWrite_replies (k : Fin 8) (v : Word) (s : State) : (memWrite k v s).replies = s.replies := rfl

@[simp] theorem memWrite_sinkRx (k : Fin 8) (v : Word) (s : State) : (memWrite k v s).sinkRx = s.sinkRx ++ [(k, v)] := rfl

@[simp] theorem memWrite_draws (k : Fin 8) (v : Word) (s : State) : (memWrite k v s).draws = s.draws := rfl

/-! ### undefineRegisters -/

@[simp] theorem undefineRegisters_phase (s : State) : (undefineRegisters s).phase = s.phase := rfl

@[simp] theorem undefineRegisters_ibuf (s : State) : (undefineRegisters s).ibuf = s.ibuf := rfl

@[simp] theorem undefineRegisters_n (s : State) : (undefineRegisters s).n = Config.freeCount s.draws := rfl

@[simp] theorem undefineRegisters_i (s : State) : (undefineRegisters s).i = Config.freeCount (s.draws + 1) := rfl

@[simp] theorem undefineRegisters_state (s : State) : (undefineRegisters s).state = Config.freeDigest (s.draws + 2) := rfl

@[simp] theorem undefineRegisters_otrace (s : State) : (undefineRegisters s).otrace = s.otrace := rfl

@[simp] theorem undefineRegisters_turns (s : State) : (undefineRegisters s).turns = s.turns := rfl

@[simp] theorem undefineRegisters_replies (s : State) : (undefineRegisters s).replies = s.replies := rfl

@[simp] theorem undefineRegisters_sinkRx (s : State) : (undefineRegisters s).sinkRx = s.sinkRx := rfl

@[simp] theorem undefineRegisters_draws (s : State) : (undefineRegisters s).draws = s.draws + 11 := rfl

/-! ### reply -/

@[simp] theorem reply_phase (r : Reply) (s : State) : (reply r s).phase = s.phase := rfl

@[simp] theorem reply_ibuf (r : Reply) (s : State) : (reply r s).ibuf = s.ibuf := rfl

@[simp] theorem reply_n (r : Reply) (s : State) : (reply r s).n = s.n := rfl

@[simp] theorem reply_i (r : Reply) (s : State) : (reply r s).i = s.i := rfl

@[simp] theorem reply_state (r : Reply) (s : State) : (reply r s).state = s.state := rfl

@[simp] theorem reply_out (r : Reply) (s : State) : (reply r s).out = s.out := rfl

@[simp] theorem reply_otrace (r : Reply) (s : State) : (reply r s).otrace = s.otrace := rfl

@[simp] theorem reply_turns (r : Reply) (s : State) : (reply r s).turns = s.turns := rfl

@[simp] theorem reply_replies (r : Reply) (s : State) : (reply r s).replies = s.replies ++ [r] := rfl

@[simp] theorem reply_sinkRx (r : Reply) (s : State) : (reply r s).sinkRx = s.sinkRx := rfl

@[simp] theorem reply_draws (r : Reply) (s : State) : (reply r s).draws = s.draws := rfl

/-! ### advance -/

@[simp] theorem State.advance_phase (s : State) : s.advance.phase = s.phase := rfl

@[simp] theorem State.advance_ibuf (s : State) : s.advance.ibuf = s.ibuf := rfl

@[simp] theorem State.advance_n (s : State) : s.advance.n = s.n := rfl

@[simp] theorem State.advance_i (s : State) : s.advance.i = s.i := rfl

@[simp] theorem State.advance_state (s : State) : s.advance.state = s.state := rfl

@[simp] theorem State.advance_out (s : State) : s.advance.out = s.out := rfl

@[simp] theorem State.advance_otrace (s : State) : s.advance.otrace = s.otrace := rfl

@[simp] theorem State.advance_turns (s : State) : s.advance.turns = s.turns.tail := rfl

@[simp] theorem State.advance_replies (s : State) : s.advance.replies = s.replies := rfl

@[simp] theorem State.advance_sinkRx (s : State) : s.advance.sinkRx = s.sinkRx := rfl

@[simp] theorem State.advance_draws (s : State) : s.advance.draws = s.draws := rfl

end Sys2Proof.Machine
end

