-- ==== Sys2Proof/Laws/Memory.lean ====
section
/-!
SUPPORT. The input-buffer space: binding a buffer keeps the canonical form and every byte, and what a read gives.
-/

namespace Sys2Proof.Machine

@[simp] theorem Memory.byte_nil (a : Nat) : Memory.byte [] a = Memory.unlisted := rfl

@[simp] theorem Memory.byte_cons (c : Host.Cell) (m : Memory) (a : Nat) :
    Memory.byte (c :: m) a = if c.1 = a then c.2 else Memory.byte m a := rfl

/-- Below the first address nothing is listed. -/
theorem Memory.byte_ofBytes_below (bs : List Byte) (k a : Nat) (h : a < k) :
    (Memory.ofBytes k bs).byte a = Memory.unlisted := by
  induction bs generalizing k with
  | nil => rfl
  | cons b bs ih =>
    simp only [Memory.ofBytes]
    split
    · exact ih (k + 1) (by omega)
    · simp only [Memory.byte_cons, if_neg (show k ≠ a by omega)]
      exact ih (k + 1) (by omega)

/-- R32, R41: the byte at an offset is the byte the host presented there. -/
theorem Memory.byte_ofBytes (bs : List Byte) (k j : Nat) :
    (Memory.ofBytes k bs).byte (k + j) = bs.getD j Memory.unlisted := by
  induction bs generalizing k j with
  | nil => simp [Memory.ofBytes]
  | cons b bs ih =>
    simp only [Memory.ofBytes]
    cases j with
    | zero =>
      split
      · rename_i hb
        simp only [Nat.add_zero, List.getD_cons_zero, hb]
        exact Memory.byte_ofBytes_below bs (k + 1) k (by omega)
      · simp
    | succ j =>
      have h := ih (k + 1) j
      rw [show k + 1 + j = k + (j + 1) by omega] at h
      split
      · simpa using h
      · simp only [Memory.byte_cons, if_neg (show k ≠ k + (j + 1) by omega), List.getD_cons_succ]
        exact h

/-- The canonical form holds from any lower address on. -/
theorem Memory.wfFrom_mono {lo lo' hi : Nat} {m : Memory} (hlo : lo' ≤ lo) (h : m.wfFrom lo hi = true) :
    m.wfFrom lo' hi = true := by
  cases m with
  | nil => rfl
  | cons c m =>
    simp only [Memory.wfFrom, Bool.and_eq_true, decide_eq_true_eq] at h ⊢
    exact ⟨⟨⟨by omega, h.1.1.2⟩, h.1.2⟩, h.2⟩

/-- Binding a byte sequence gives the canonical form. -/
theorem Memory.wfFrom_ofBytes (bs : List Byte) (k : Nat) :
    (Memory.ofBytes k bs).wfFrom k (k + bs.length) = true := by
  induction bs generalizing k with
  | nil => rfl
  | cons b bs ih =>
    have h := ih (k + 1)
    rw [show k + 1 + bs.length = k + (b :: bs).length by simp; omega] at h
    simp only [Memory.ofBytes]
    split
    · exact Memory.wfFrom_mono (by omega) h
    · rename_i hb
      simp only [Memory.wfFrom, Bool.and_eq_true, decide_eq_true_eq]
      exact ⟨⟨⟨Nat.le_refl k, by simp⟩, hb⟩, h⟩

@[simp] theorem InputBuffer.ofBytes_len (bs : List Byte) : (InputBuffer.ofBytes bs).len = bs.length := rfl

/-- R137: a bound buffer is in canonical form. -/
theorem InputBuffer.wf_ofBytes (bs : List Byte) : (InputBuffer.ofBytes bs).wf = true := by
  simpa [InputBuffer.wf, Memory.wf, InputBuffer.ofBytes] using Memory.wfFrom_ofBytes bs 0

/-- R137, R41: offset `k` of the bound buffer holds byte `k` of what the host presented. -/
theorem InputBuffer.byte_ofBytes (bs : List Byte) (k : Nat) :
    (InputBuffer.ofBytes bs).byte k = bs.getD k Memory.unlisted := by
  simpa [InputBuffer.byte, InputBuffer.ofBytes] using Memory.byte_ofBytes bs 0 k

/-- R14: `MemRead(k, n)` inside the bound buffer. -/
theorem memRead_inside {k n : Nat} {s : State} {b : InputBuffer} (hb : s.ibuf = some b) (h : k + n ≤ b.len) :
    memRead k n s = .ok (Vector.ofFn fun j => b.byte (k + j.val)) := by
  simp [memRead, hb, h]

/-- R14, R41: `MemRead(k, n)` anywhere else. -/
theorem memRead_outside {k n : Nat} {s : State} (h : ∀ b, s.ibuf = some b → b.len < k + n) :
    memRead k n s = .error .outsideBuffer := by
  unfold memRead
  split
  · rfl
  · rename_i b hb
    have := h b hb
    rw [if_neg (by omega)]

end Sys2Proof.Machine
end

