-- ==== Sys2Proof/Laws/Exec.lean ====
section
/-!
SUPPORT. For each operation, everything it can do: when it is available the state it answers, and the converse. Later
proofs cite these and unfold no meaning.
-/

namespace Sys2Proof.Machine

/-- RESET always answers (R136). -/
theorem exec_reset (s : State) :
    exec .reset s = .next { undefineRegisters s with phase := .start, ibuf := none, otrace := [] } := rfl

/-- LOAD in its condition (R137). -/
theorem exec_load {buf : List Byte} {s : State} (hp : s.phase = .start) (hb : s.ibuf = none)
    (hw : (Instr.load buf).wellFormed = true) :
    exec (.load buf) s = .next { s with ibuf := some (InputBuffer.ofBytes buf) } := by
  simp [exec, execLoad, hp, hb, hw]

/-- RDSTATUS always answers (R138). -/
theorem exec_rdstatus (s : State) : exec .rdstatus s = .next (reply (.status s.status) s) := rfl

/-- RDOUT in DONE (R139). -/
theorem exec_rdout_done {s : State} (k : Fin 8) (hp : s.phase = .done) :
    exec (.rdout k) s = .next (reply (.out k s.out[k.val]) s) := by
  simp [exec, execRdout, hp]

/-- RDOUT outside DONE (R35). -/
theorem exec_rdout_other {s : State} (k : Fin 8) (hp : s.phase ≠ .done) :
    exec (.rdout k) s = .next { reply (.out k (Config.freeWord s.draws)) s with draws := s.draws + 1 } := by
  simp [exec, execRdout, hp]

/-- DECODE of a short buffer (R81, R154). -/
theorem exec_decode_short {s : State} {b : InputBuffer} (hp : s.phase = .start) (hb : s.ibuf = some b)
    (hl : b.len < Config.minLen) : exec .decode s = .next (raiseMalformedInput s) := by
  simp only [exec, execDecode, hp, hb, if_pos hl]

/-- DECODE of a well-formed buffer (R80). -/
theorem exec_decode_ok {s : State} {b : InputBuffer} (hp : s.phase = .start) (hb : s.ibuf = some b)
    (hl : Config.minLen ≤ b.len) :
    exec .decode s = .next { s with n := b.count, i := 0, state := b.seed, phase := .seeded } := by
  have h1 : memRead 0 Config.countBytes s = .ok (Vector.ofFn fun j => b.byte j.val) := by
    rw [memRead_inside hb (show 0 + Config.countBytes ≤ b.len from le_trans (by decide) hl)]
    simp
  have h2 : memRead 8 Config.seedBytes s = .ok (Vector.ofFn fun j => b.byte (8 + j.val)) :=
    memRead_inside hb (show 8 + Config.seedBytes ≤ b.len from le_trans (by decide) hl)
  simp only [exec, execDecode, hp, hb, if_neg (Nat.not_lt.mpr hl), h1, h2]
  rfl

/-- HASHSTEP in its condition (R110). -/
theorem exec_hashstep {s : State} (hp : s.phase = .seeded) (h : s.i < s.n) :
    exec .hashstep s = .next { s with state := hash256 s.state, i := s.i + 1 } := by
  simp [exec, execHashstep, hp, h]

/-- FINALIZE in its condition (R111). -/
theorem exec_finalize {s : State} (hp : s.phase = .seeded) (h : s.i = s.n) :
    exec .finalize s = .next { s with phase := .finalized } := by
  simp [exec, execFinalize, hp, h]

/-- R125, R127: the eight ordered writes together. -/
theorem writeOutputs_eq (s : State) :
    writeOutputs s =
      { s with
        out := outWords s.state
        otrace := s.otrace ++ outputWrites s.state
        sinkRx := s.sinkRx ++ outputWrites s.state } := by
  have hout : (writeOutputs s).out = outWords s.state := by
    apply Vector.ext
    intro k hk
    have hk' : k = 0 ∨ k = 1 ∨ k = 2 ∨ k = 3 ∨ k = 4 ∨ k = 5 ∨ k = 6 ∨ k = 7 := by omega
    rcases hk' with rfl | rfl | rfl | rfl | rfl | rfl | rfl | rfl <;>
      simp [writeOutputs, outWords]
  rw [← hout]
  simp [writeOutputs, outputWrites, memWrite]

/-- ENCODE in its condition (R125). -/
theorem exec_encode {s : State} (hp : s.phase = .finalized) :
    exec .encode s =
      .next { s with
        phase := .done
        out := outWords s.state
        otrace := s.otrace ++ outputWrites s.state
        sinkRx := s.sinkRx ++ outputWrites s.state } := by
  simp [exec, execEncode, hp, writeOutputs_eq]

/-- Everything an operation can do when it answers a next state: one case per operation and outcome. -/
inductive ExecCase (s : State) : Instr → State → Prop where
  | reset : ExecCase s .reset { undefineRegisters s with phase := .start, ibuf := none, otrace := [] }
  | load (buf : List Byte) (hp : s.phase = .start) (hb : s.ibuf = none) :
      ExecCase s (.load buf) { s with ibuf := some (InputBuffer.ofBytes buf) }
  | rdstatus : ExecCase s .rdstatus (reply (.status s.status) s)
  | rdoutDone (k : Fin 8) (hp : s.phase = .done) : ExecCase s (.rdout k) (reply (.out k s.out[k.val]) s)
  | rdoutOther (k : Fin 8) (hp : s.phase ≠ .done) :
      ExecCase s (.rdout k) { reply (.out k (Config.freeWord s.draws)) s with draws := s.draws + 1 }
  | decodeShort (b : InputBuffer) (hp : s.phase = .start) (hb : s.ibuf = some b) (hl : b.len < Config.minLen) :
      ExecCase s .decode (raiseMalformedInput s)
  | decodeOk (b : InputBuffer) (hp : s.phase = .start) (hb : s.ibuf = some b) (hl : Config.minLen ≤ b.len) :
      ExecCase s .decode { s with n := b.count, i := 0, state := b.seed, phase := .seeded }
  | hashstep (hp : s.phase = .seeded) (h : s.i < s.n) :
      ExecCase s .hashstep { s with state := hash256 s.state, i := s.i + 1 }
  | finalize (hp : s.phase = .seeded) (h : s.i = s.n) : ExecCase s .finalize { s with phase := .finalized }
  | encode (hp : s.phase = .finalized) :
      ExecCase s .encode
        { s with
          phase := .done
          out := outWords s.state
          otrace := s.otrace ++ outputWrites s.state
          sinkRx := s.sinkRx ++ outputWrites s.state }

/-- DECODE where it is not enabled (R70). -/
theorem exec_decode_disabled {s : State} (h : ¬ (s.phase = .start ∧ s.ibuf.isSome = true)) :
    exec .decode s = .refused (.coreOpNotEnabled "DECODE") := by
  simp only [exec, execDecode]
  split
  · rename_i b hp hb
    exact absurd ⟨hp, by simp [hb]⟩ h
  · rfl

/-- The inversion of `exec`: what answers a next state is one of `ExecCase`. -/
theorem exec_next {i : Instr} {s t : State} (h : exec i s = .next t) : ExecCase s i t := by
  cases i with
  | reset => rw [exec_reset] at h; cases h; exact .reset
  | load buf =>
    simp only [exec, execLoad] at h
    split at h
    · rename_i hc
      split at h
      · cases h; exact .load buf hc.1 hc.2
      · cases h
    · cases h
  | rdstatus => rw [exec_rdstatus] at h; cases h; exact .rdstatus
  | rdout k =>
    by_cases hp : s.phase = .done
    · rw [exec_rdout_done k hp] at h; cases h; exact .rdoutDone k hp
    · rw [exec_rdout_other k hp] at h; cases h; exact .rdoutOther k hp
  | decode =>
    by_cases hc : s.phase = .start ∧ s.ibuf.isSome = true
    · obtain ⟨b, hb⟩ := Option.isSome_iff_exists.mp hc.2
      by_cases hl : b.len < Config.minLen
      · rw [exec_decode_short hc.1 hb hl] at h; cases h; exact .decodeShort b hc.1 hb hl
      · rw [exec_decode_ok hc.1 hb (Nat.not_lt.mp hl)] at h; cases h
        exact .decodeOk b hc.1 hb (Nat.not_lt.mp hl)
    · rw [exec_decode_disabled hc] at h; cases h
  | hashstep =>
    simp only [exec, execHashstep] at h
    split at h
    · rename_i hc; cases h; exact .hashstep hc.1 hc.2
    · cases h
  | finalize =>
    simp only [exec, execFinalize] at h
    split at h
    · rename_i hc; cases h; exact .finalize hc.1 hc.2
    · cases h
  | encode =>
    by_cases hp : s.phase = .finalized
    · rw [exec_encode hp] at h; cases h; exact .encode hp
    · simp [exec, execEncode, hp] at h

/-- A core operation neither reads nor writes the model's record of the host: turns, replies and draws. -/
theorem exec_core_congr {i : Instr} {s t : State} (hi : isCoreOp i = true) (h : exec i s = .next t) (ts : List Turn)
    (rs : List Reply) (d : Nat) :
    exec i { s with turns := ts, replies := rs, draws := d } =
      .next { t with turns := ts, replies := rs, draws := d } := by
  cases exec_next h with
  | decodeShort b hp hb hl => exact exec_decode_short (by exact hp) (by exact hb) hl
  | decodeOk b hp hb hl => exact exec_decode_ok (by exact hp) (by exact hb) hl
  | hashstep hp hlt => exact exec_hashstep (by exact hp) (by exact hlt)
  | finalize hp he => exact exec_finalize (by exact hp) (by exact he)
  | encode hp => exact exec_encode (by exact hp)
  | _ => cases hi

/-- A host read answers and changes the model's replies and draws alone (R138, R139). -/
theorem exec_read {op : HostOp} (h : (Turn.host op).coreOrRead = true) (s : State) :
    ∃ rs d, exec op.instr s = .next { s with replies := rs, draws := d } := by
  cases op with
  | reset => cases h
  | load buf => cases h
  | rdstatus => exact ⟨_, _, exec_rdstatus s⟩
  | rdout k =>
    by_cases hp : s.phase = .done
    · exact ⟨_, _, exec_rdout_done k hp⟩
    · exact ⟨_, _, exec_rdout_other k hp⟩

/-- No operation faults (R150). -/
theorem exec_ne_fault (i : Instr) (s : State) (f : Fault) : exec i s ≠ .fault f := by
  cases i with
  | reset => simp [exec_reset]
  | load buf => simp only [exec, execLoad]; split <;> [split <;> simp; simp]
  | rdstatus => simp [exec_rdstatus]
  | rdout k => simp only [exec, execRdout]; split <;> simp
  | decode =>
    by_cases hc : s.phase = .start ∧ s.ibuf.isSome = true
    · obtain ⟨b, hb⟩ := Option.isSome_iff_exists.mp hc.2
      by_cases hl : b.len < Config.minLen
      · simp [exec_decode_short hc.1 hb hl]
      · simp [exec_decode_ok hc.1 hb (Nat.not_lt.mp hl)]
    · simp [exec_decode_disabled hc]
  | hashstep => simp only [exec, execHashstep]; split <;> simp
  | finalize => simp only [exec, execFinalize]; split <;> simp
  | encode => simp only [exec, execEncode]; split <;> simp

end Sys2Proof.Machine
end

