-- ==== Sys2Proof/Laws/Chain.lean ====
section
/-!
SUPPORT. The fields of a buffer, the counter, and run traces.
-/

namespace Sys2Proof.Machine

/-- R64: the count is `le` of the bytes at offsets 0 to 7. -/
theorem InputBuffer.count_toNat (b : InputBuffer) :
    b.count.toNat = le [b.byte 0, b.byte 1, b.byte 2, b.byte 3, b.byte 4, b.byte 5, b.byte 6, b.byte 7] := by
  have hl : (Vector.ofFn fun j : Fin 8 => b.byte j.val).toList =
      [b.byte 0, b.byte 1, b.byte 2, b.byte 3, b.byte 4, b.byte 5, b.byte 6, b.byte 7] := by
    simp [Vector.toList_ofFn, List.ofFn_succ]
  have hlt := le_lt [b.byte 0, b.byte 1, b.byte 2, b.byte 3, b.byte 4, b.byte 5, b.byte 6, b.byte 7]
  simp only [List.length_cons, List.length_nil, Nat.reduceAdd, Nat.reducePow] at hlt
  simp only [InputBuffer.count, countOfBytes, hl, BitVec.toNat_ofNat, Nat.reducePow]
  exact Nat.mod_eq_of_lt hlt

/-- R65: byte `j` of the seed is the byte at offset `8 + j`. -/
@[simp] theorem InputBuffer.seed_getElem (b : InputBuffer) (j : Nat) (h : j < 32) : b.seed[j] = b.byte (8 + j) := by
  simp [InputBuffer.seed]

/-- R118: below N the increment does not wrap. -/
theorem succ_toNat_of_lt {i n : Count} (h : i < n) : (i + 1).toNat = i.toNat + 1 := by
  have hn := n.isLt
  rw [BitVec.lt_def] at h
  rw [BitVec.toNat_add, show (1 : Count).toNat = 1 from rfl, Nat.mod_eq_of_lt (by omega)]

/-- A run trace in two parts. -/
theorem runTrace_append (is js : List Instr) (s : State) :
    runTrace (is ++ js) s =
      match runTrace is s with
      | .next t => runTrace js t
      | .fault f => .fault f
      | .refused r => .refused r := by
  induction is generalizing s with
  | nil => rfl
  | cons i is ih =>
    simp only [List.cons_append, runTrace]
    cases exec i s <;> simp [ih]

end Sys2Proof.Machine
end

