-- ==== Sys2Proof/Laws/Hash.lean ====
section
/-!
SUPPORT. Hash256: the bits of the word functions, the lengths of the padded block and of the schedule, and one lemma per
working variable of a round.
-/

namespace Sys2Proof.Machine

/-! ### Bits of the word functions (R92) -/

/-- Bit `j` of a rotated word is bit `j + k` modulo 32 of the word. -/
theorem rotr_getLsbD (k j : Nat) (x : Word) (hj : j < 32) : (rotr k x).getLsbD j = x.getLsbD ((j + k) % 32) := by
  simp only [rotr, BitVec.getLsbD_rotateRight]
  by_cases h : j < 32 - k % 32
  · simp only [h, decide_true, cond_true]
    congr 1
    omega
  · simp only [h, hj, decide_true, decide_false, cond_false, Bool.true_and]
    congr 1
    omega

/-- Bit `j` of a shifted word is bit `j + k` of the word, 0 above bit 31. -/
theorem shr_getLsbD (k j : Nat) (x : Word) : (shr k x).getLsbD j = x.getLsbD (j + k) := by
  simp [shr, Nat.add_comm]

/-! ### Lengths (R96 to R98) -/

@[simp] theorem paddedBlock_length (s : Digest) : (paddedBlock s).length = 64 := by simp [paddedBlock]

/-- A word for every four bytes. -/
theorem beWords_length (k : Nat) (bs : List Byte) (h : bs.length = 4 * k) : (beWords bs).length = k := by
  induction k generalizing bs with
  | zero =>
    obtain rfl : bs = [] := List.length_eq_zero_iff.mp (by omega)
    rfl
  | succ k ih =>
    match bs, h with
    | b0 :: b1 :: b2 :: b3 :: bs, h =>
      simp only [beWords, List.length_cons] at h ⊢
      rw [ih bs (by omega)]

@[simp] theorem extendSchedule_length (k : Nat) (newest : List Word) :
    (extendSchedule k newest).length = newest.length + k := by
  induction k generalizing newest with
  | zero => rfl
  | succ k ih =>
    simp only [extendSchedule, ih, List.length_cons]
    omega

/-- The words that extending starts from stay, behind the new ones. -/
@[simp] theorem extendSchedule_drop (k : Nat) (newest : List Word) : (extendSchedule k newest).drop k = newest := by
  induction k generalizing newest with
  | zero => rfl
  | succ k ih =>
    rw [extendSchedule, List.drop_add_one_eq_tail_drop, ih]
    rfl

@[simp] theorem schedule_length (s : Digest) : (schedule s).length = 64 := by
  simp [schedule, beWords_length 16]

@[simp] theorem roundConstants_length : roundConstants.length = 64 := rfl

/-! ### A round (R99) -/

@[simp] theorem compressRound_a (v : WorkVars) (kw : Word × Word) :
    (compressRound v kw).a =
      v.h + bsig1 v.e + ch v.e v.f v.g + kw.1 + kw.2 + (bsig0 v.a + maj v.a v.b v.c) := rfl

@[simp] theorem compressRound_b (v : WorkVars) (kw : Word × Word) : (compressRound v kw).b = v.a := rfl

@[simp] theorem compressRound_c (v : WorkVars) (kw : Word × Word) : (compressRound v kw).c = v.b := rfl

@[simp] theorem compressRound_d (v : WorkVars) (kw : Word × Word) : (compressRound v kw).d = v.c := rfl

@[simp] theorem compressRound_e (v : WorkVars) (kw : Word × Word) :
    (compressRound v kw).e = v.d + (v.h + bsig1 v.e + ch v.e v.f v.g + kw.1 + kw.2) := rfl

@[simp] theorem compressRound_f (v : WorkVars) (kw : Word × Word) : (compressRound v kw).f = v.e := rfl

@[simp] theorem compressRound_g (v : WorkVars) (kw : Word × Word) : (compressRound v kw).g = v.f := rfl

@[simp] theorem compressRound_h (v : WorkVars) (kw : Word × Word) : (compressRound v kw).h = v.g := rfl

/-- Rounds over the first `t + 1` pairs are those over the first `t`, then one more. -/
theorem foldl_take_succ {kws : List (Word × Word)} {t : Nat} {kw : Word × Word} (h : kws[t]? = some kw) (v : WorkVars) :
    (kws.take (t + 1)).foldl compressRound v = compressRound ((kws.take t).foldl compressRound v) kw := by
  rw [List.take_add_one, h]
  simp

end Sys2Proof.Machine
end

