-- ==== Sys2Proof/Laws/PerInstr.lean ====
section
/-!
SUPPORT. Per-operation families: what holds of each operation as syntax, one lemma per constructor.
-/

namespace Sys2Proof.Laws.RoundTrip

/-- The decoder reads a well-formed operation back from its own encoding, with every operand. -/
def Statement (i : Instr) : Prop := i.wellFormed = true → decodeBytes (encode i) = .ok i

theorem reset : Statement .reset := fun _ => rfl

theorem load (buf : List Byte) : Statement (.load buf) := fun _ => rfl

theorem rdstatus : Statement .rdstatus := fun _ => rfl

theorem rdout (i : Fin 8) : Statement (.rdout i) := by
  intro _
  have h : ∀ k : Fin 8, decodeBytes (encode (.rdout k)) = .ok (.rdout k) := by
    intro k
    fin_cases k <;> rfl
  exact h i

theorem decode : Statement .decode := fun _ => rfl

theorem hashstep : Statement .hashstep := fun _ => rfl

theorem finalize : Statement .finalize := fun _ => rfl

theorem encode : Statement .encode := fun _ => rfl

end Sys2Proof.Laws.RoundTrip
end

