-- ==== Sys2Proof/Laws/Select.lean ====
section
/-!
SUPPORT. What the selector of each state decodes to (30_encoding.md R70), and what the next step performs.
-/

namespace Sys2Proof.Machine

/-- START with a buffer bound selects DECODE. -/
theorem decode_selector_start_bound {s : State} (hp : s.phase = .start) (hb : s.ibuf.isSome = true) :
    decodeBytes [s.selector] = .ok .decode := by
  simp only [State.selector, State.condition, hp, hb, if_true]
  rfl

/-- START with no buffer bound selects nothing: the core waits for LOAD. -/
theorem decode_selector_start_unbound {s : State} (hp : s.phase = .start) (hb : s.ibuf = none) :
    decodeBytes [s.selector] = .error .waitingForLoad := by
  simp only [State.selector, State.condition, hp, hb, Option.isSome_none, Bool.false_eq_true, if_false]
  rfl

/-- SEEDED with I below N selects HASHSTEP. -/
theorem decode_selector_seeded_lt {s : State} (hp : s.phase = .seeded) (h : s.i < s.n) :
    decodeBytes [s.selector] = .ok .hashstep := by
  simp only [State.selector, State.condition, hp, h, if_true]
  rfl

/-- SEEDED with I equal to N selects FINALIZE. -/
theorem decode_selector_seeded_eq {s : State} (hp : s.phase = .seeded) (h : s.i = s.n) :
    decodeBytes [s.selector] = .ok .finalize := by
  simp only [State.selector, State.condition, hp, h, BitVec.lt_irrefl, if_true, if_false]
  rfl

/-- SEEDED with I above N, which R118 rules out, selects nothing. -/
theorem decode_selector_seeded_gt {s : State} (hp : s.phase = .seeded) (h : s.n < s.i) :
    decodeBytes [s.selector] = .error .countPassed := by
  have h1 : ¬ s.i < s.n := by simp only [BitVec.lt_def] at *; omega
  have h2 : ¬ s.i = s.n := by rintro e; simp [e] at h
  simp only [State.selector, State.condition, hp, h1, h2, if_false]
  rfl

/-- FINALIZED selects ENCODE. -/
theorem decode_selector_finalized {s : State} (hp : s.phase = .finalized) :
    decodeBytes [s.selector] = .ok .encode := by
  simp only [State.selector, State.condition, hp]
  rfl

/-- DONE selects nothing. -/
theorem decode_selector_done {s : State} (hp : s.phase = .done) :
    decodeBytes [s.selector] = .error .runEnded := by
  simp only [State.selector, State.condition, hp]
  rfl

/-- MALFORMED selects nothing. -/
theorem decode_selector_malformed {s : State} (hp : s.phase = .malformed) :
    decodeBytes [s.selector] = .error .runEnded := by
  simp only [State.selector, State.condition, hp]
  rfl

/-- On the host's turn the next step performs the host's move. -/
theorem fetch_host {s : State} {op : HostOp} {rest : List Turn} (h : s.turns = .host op :: rest) :
    s.fetch = some op.instr := by
  simp [State.fetch, h]

/-- On the core's turn the next step performs what the selector decodes to. -/
theorem fetch_core {s : State} (h : ∀ op rest, s.turns ≠ .host op :: rest) :
    s.fetch = match decodeBytes [s.selector] with | .ok i => some i | .error _ => none := by
  unfold State.fetch
  split
  · rename_i op rest he
    exact absurd he (h op rest)
  · rfl

end Sys2Proof.Machine
end

