-- ==== Sys2Proof/Laws/Step.lean ====
section
/-!
SUPPORT. What a step can do: the host's move, the core operation R70 selects, or nothing but the turn used up.
-/

namespace Sys2Proof.Machine

/-- The step when an operation is fetched. -/
theorem step_of_fetch {s : State} {i : Instr} (h : s.fetch = some i) : step s = exec i s.advance := by
  simp [step, h]

/-- The step when none is. -/
theorem step_of_idle {s : State} (h : s.fetch = none) : step s = .next s.advance := by
  simp [step, h]

/-- The inversion of `step`: a next state comes from an operation (one of `ExecCase`) or from an idle turn. -/
theorem step_next {s t : State} (h : step s = .next t) :
    (∃ i, s.fetch = some i ∧ ExecCase s.advance i t) ∨ (s.fetch = none ∧ t = s.advance) := by
  cases hf : s.fetch with
  | none =>
    rw [step_of_idle hf] at h
    cases h
    exact .inr ⟨rfl, rfl⟩
  | some i =>
    rw [step_of_fetch hf] at h
    exact .inl ⟨i, rfl, exec_next h⟩

/-- With no turn pending, using up a turn changes nothing. -/
theorem advance_of_no_turns {s : State} (h : s.turns = []) : s.advance = s := by
  cases s
  simp_all [State.advance]

/-- What the selector names is a core operation that is enabled (R70). -/
theorem exec_of_selector {s : State} {i : Instr} (h : decodeBytes [s.selector] = .ok i) :
    isCoreOp i = true ∧ ∃ t, exec i s = .next t := by
  cases hp : s.phase with
  | start =>
    cases hb : s.ibuf with
    | none => rw [decode_selector_start_unbound hp hb] at h; cases h
    | some b =>
      rw [decode_selector_start_bound hp (by simp [hb])] at h
      cases h
      by_cases hl : b.len < Config.minLen
      · exact ⟨rfl, _, exec_decode_short hp hb hl⟩
      · exact ⟨rfl, _, exec_decode_ok hp hb (Nat.not_lt.mp hl)⟩
  | seeded =>
    rcases lt_trichotomy s.i.toNat s.n.toNat with hlt | heq | hgt
    · rw [decode_selector_seeded_lt hp (BitVec.lt_def.mpr hlt)] at h
      cases h
      exact ⟨rfl, _, exec_hashstep hp (BitVec.lt_def.mpr hlt)⟩
    · rw [decode_selector_seeded_eq hp (BitVec.eq_of_toNat_eq heq)] at h
      cases h
      exact ⟨rfl, _, exec_finalize hp (BitVec.eq_of_toNat_eq heq)⟩
    · rw [decode_selector_seeded_gt hp (BitVec.lt_def.mpr hgt)] at h
      cases h
  | finalized =>
    rw [decode_selector_finalized hp] at h
    cases h
    exact ⟨rfl, _, exec_encode hp⟩
  | done => rw [decode_selector_done hp] at h; cases h
  | malformed => rw [decode_selector_malformed hp] at h; cases h

/-- On the core's turn a step answers, and what it does to the spec's own elements is the same whatever turns follow and
whatever the host has read. -/
theorem step_core_turn (s : State) :
    ∃ t : State, ∀ (ts : List Turn) (rs : List Reply) (d : Nat), (∀ op rest, ts ≠ .host op :: rest) →
      step { s with turns := ts, replies := rs, draws := d } =
        .next { t with turns := ts.tail, replies := rs, draws := d } := by
  cases hsel : decodeBytes [s.selector] with
  | error e =>
    refine ⟨s, fun ts rs d hts => step_of_idle ?_⟩
    rw [fetch_core (by exact hts)]
    change (match decodeBytes [s.selector] with | .ok i => some i | .error _ => none) = none
    rw [hsel]
  | ok i =>
    obtain ⟨hi, t, ht⟩ := exec_of_selector hsel
    refine ⟨t, fun ts rs d hts => ?_⟩
    have hf : State.fetch { s with turns := ts, replies := rs, draws := d } = some i := by
      rw [fetch_core (by exact hts)]
      change (match decodeBytes [s.selector] with | .ok i => some i | .error _ => none) = some i
      rw [hsel]
    rw [step_of_fetch hf]
    exact exec_core_congr hi ht ts.tail rs d

end Sys2Proof.Machine
end

