-- ==== Sys2Proof/Laws/Run.lean ====
section
/-!
SUPPORT. Runs of several steps, and what the invariant depends on.
-/

namespace Sys2Proof.Machine

theorem runSteps_zero (s : State) : runSteps 0 s = .next s := rfl

/-- The first step of a run, then the rest. -/
theorem runSteps_succ (k : Nat) (s : State) :
    runSteps (k + 1) s =
      match step s with
      | .next t => runSteps k t
      | .fault f => .fault f
      | .refused r => .refused r := rfl

/-- The host's run by its first step. -/
theorem hostRun_succ (M : Host.Core) {k : Nat} {s t : M.State} (h : M.step s = .next t) :
    M.run (k + 1) s = M.run k t := by
  simp [Host.Core.run, h]

/-- The host's run stops at a fault. -/
theorem hostRun_fault (M : Host.Core) {k : Nat} {s : M.State} {f : M.Fault} (h : M.step s = .fault f) :
    M.run (k + 1) s = .fault f := by
  simp [Host.Core.run, h]

/-- The host's run stops at a refusal. -/
theorem hostRun_refused (M : Host.Core) {k : Nat} {s : M.State} {r : M.Refusal} (h : M.step s = .refused r) :
    M.run (k + 1) s = .refused r := by
  simp [Host.Core.run, h]

/-- The run is the host's own. -/
theorem runSteps_eq_run (k : Nat) (s : State) : runSteps k s = Sys2Proof.core.run k s := by
  induction k generalizing s with
  | zero => rfl
  | succ k ih =>
    rw [runSteps_succ]
    cases hs : step s with
    | next t => exact (ih t).trans (hostRun_succ Sys2Proof.core hs).symm
    | fault f => exact (hostRun_fault Sys2Proof.core hs).symm
    | refused r => exact (hostRun_refused Sys2Proof.core hs).symm

/-- A run one step longer, by its last step. -/
theorem runSteps_snoc {k : Nat} {s t : State} (h : runSteps k s = .next t) : runSteps (k + 1) s = step t := by
  induction k generalizing s with
  | zero =>
    cases h
    rw [runSteps_succ]
    cases step t <;> rfl
  | succ k ih =>
    rw [runSteps_succ] at h ⊢
    cases hs : step s with
    | next u => rw [hs] at h; exact ih h
    | fault f => rw [hs] at h; cases h
    | refused r => rw [hs] at h; cases h

/-- A run that completes completes one step earlier. -/
theorem runSteps_prefix {k : Nat} {s t : State} (h : runSteps (k + 1) s = .next t) :
    ∃ u, runSteps k s = .next u ∧ step u = .next t := by
  induction k generalizing s with
  | zero =>
    refine ⟨s, rfl, ?_⟩
    rw [← h]
    exact (runSteps_snoc (runSteps_zero s)).symm
  | succ k ih =>
    rw [runSteps_succ] at h
    rw [runSteps_succ]
    cases hs : step s with
    | next u => rw [hs] at h; exact ih h
    | fault f => rw [hs] at h; cases h
    | refused r => rw [hs] at h; cases h

/-- With no turn pending every step is the core's. -/
@[simp] theorem coreMoves_nil (m : Nat) : coreMoves m [] = m := by
  induction m with
  | zero => rfl
  | succ m ih => simp [coreMoves, ih]

@[simp] theorem coreMoves_zero (ts : List Turn) : coreMoves 0 ts = 0 := rfl

@[simp] theorem coreMoves_core (m : Nat) (ts : List Turn) : coreMoves (m + 1) (.core :: ts) = coreMoves m ts + 1 := rfl

@[simp] theorem coreMoves_host (m : Nat) (op : HostOp) (ts : List Turn) :
    coreMoves (m + 1) (.host op :: ts) = coreMoves m ts := rfl

/-- What R36 says of a state depends on the spec's own elements alone. -/
theorem phaseInv_congr {s t : State} (h : s.PhaseInv) (hp : t.phase = s.phase) (hb : t.ibuf = s.ibuf) (hn : t.n = s.n)
    (hi : t.i = s.i) (hd : t.state = s.state) (ho : t.out = s.out) (hw : t.otrace = s.otrace) : t.PhaseInv := by
  cases s
  cases t
  subst hp hb hn hi hd ho hw
  unfold State.PhaseInv at *
  split <;> rename_i hp <;> simp only at hp <;> subst hp
  · exact h
  · obtain ⟨b, h1, h2, h3⟩ := h
    exact ⟨b, h1, ⟨h2.len, h2.n, h2.le, h2.state⟩, h3⟩
  · obtain ⟨b, h1, h2, h3⟩ := h
    exact ⟨b, h1, ⟨h2.len, h2.n, h2.le, h2.state⟩, h3⟩
  · obtain ⟨b, h1, h2, h3⟩ := h
    exact ⟨b, h1, ⟨h2.len, h2.n, h2.le, h2.state⟩, h3⟩
  · exact h

end Sys2Proof.Machine
end

