-- ==== Sys2Proof/Laws/Status.lean ====
section
/-!
SUPPORT. The values of STATUS (10_state.md R29).
-/

namespace Sys2Proof.Machine

/-- STATUS as a number, for every phase with and without a buffer bound. -/
theorem State.status_eq (s : State) :
    s.status =
      match s.phase, s.ibuf.isSome with
      | .start, false => 0x00000000
      | .start, true => 0x00000100
      | .seeded, false => 0x00000001
      | .seeded, true => 0x00000101
      | .finalized, false => 0x00000002
      | .finalized, true => 0x00000102
      | .done, false => 0x0000000b
      | .done, true => 0x0000010b
      | .malformed, false => 0x00000014
      | .malformed, true => 0x00000114 := by
  unfold State.status State.boundBit
  cases s.phase <;> cases s.ibuf.isSome <;> rfl

end Sys2Proof.Machine
end

