-- ==== Sys2Proof/Tests/Slice0.lean ====
section
/-!
SUPPORT. Small tests, with expected values from spec/ (95_test_vectors.md where no other file is named), and for every
statement with hypotheses a witness that meets them.
-/

open Sys2Proof Sys2Proof.Machine

namespace Sys2Proof.Tests

/-! ### Helpers -/

/-- A small state: every register zero. -/
def small (phase : Phase) (ibuf : Option InputBuffer) : State where
  phase := phase
  ibuf := ibuf
  n := 0
  i := 0
  state := Vector.replicate 32 0
  out := Vector.replicate 8 0
  otrace := []
  turns := []
  replies := []
  sinkRx := []
  draws := 0

/-- The next state of an outcome, if it is one. -/
def nextOf (o : Host.Outcome State Fault Refusal) : Option State :=
  match o with
  | .next s => some s
  | .fault _ => none
  | .refused _ => none

/-- The bytes `00 01 02 ... 1f`. -/
def countingBytes : List Byte := (List.range 32).map (BitVec.ofNat 8)

/-- The digest `00 01 02 ... 1f`. -/
def countingDigest : Digest := Vector.ofFn fun j : Fin 32 => BitVec.ofNat 8 j.val

/-- The digest `[0xFF; 32]`. -/
def onesDigest : Digest := Vector.replicate 32 0xff

/-- The 40 bytes of `job(n, 00 01 ... 1f)`, the count's bytes as given. -/
def countingJob (count : List Byte) : List Byte := count ++ countingBytes

/-- 40 zero bytes. -/
def zeroBuffer : InputBuffer := { len := 40, cells := [] }

/-- 39 zero bytes. -/
def shortBuffer : InputBuffer := { len := 39, cells := [] }

/-! ### WellFormed: an ill-formed term for its one check (R7) -/

theorem test_wellFormed_refuses_a_buffer_above_the_bound :
    (Instr.load (List.replicate 41 0)).wellFormedFor (some 40) = false := by decide

theorem test_wellFormed_accepts_a_buffer_at_the_bound :
    (Instr.load (List.replicate 40 0)).wellFormedFor (some 40) = true := by decide

/-! ### Decoding: words written from R69 to R71 (PHASE code in bits 2:0) and, for the host, from log entry 1 -/

theorem test_word_decode : decodeBytes [0b00000000] = .ok .decode := by decide

theorem test_word_hashstep : decodeBytes [0b00000001] = .ok .hashstep := by decide

theorem test_word_finalize : decodeBytes [0b00010001] = .ok .finalize := by decide

theorem test_word_encode : decodeBytes [0b00000010] = .ok .encode := by decide

theorem test_word_reset : decodeBytes [0b10000000] = .ok .reset := by decide

theorem test_word_load : decodeBytes [0b10001000, 5, 0, 0] = .ok (.load [5, 0, 0]) := by decide

theorem test_word_rdstatus : decodeBytes [0b10010000] = .ok .rdstatus := by decide

theorem test_word_rdout : decodeBytes [0b10011111] = .ok (.rdout 7) := by decide

/-- R69: codes 5 to 7 are reserved; 3 and 4 have no core operation (R70). -/
theorem test_word_rejected :
    [3, 4, 5, 6, 7].map (fun w : Byte => decodeBytes [w]) =
      [.error .runEnded, .error .runEnded, .error .reservedPhase, .error .reservedPhase, .error .reservedPhase] := by
  decide

/-- R70: START unbound selects nothing. -/
theorem test_word_waiting : decodeBytes [0b00001000] = .error .waitingForLoad := by decide

/-! ### Host operations (section 2.5) -/

theorem test_load_status :
    (nextOf (exec (.load (List.replicate 40 0xff)) (small .start none))).map State.status = some 0x00000100 := by decide

theorem test_load_empty_buffer :
    (nextOf (exec (.load []) (small .start none))).map State.len = some (some 0) := by decide

theorem test_reset_in_the_loop :
    (nextOf (exec .reset { small .seeded (some zeroBuffer) with i := 3, n := 1000 })).map
      (fun t => (t.phase, t.ibuf, t.status)) = some (.start, none, 0x00000000) := by decide

/-- R136: power-on reset is this same operation. -/
theorem test_reset_is_power_on : exec .reset (small .done (some zeroBuffer)) = .next State.reset := rfl

theorem test_rdstatus_done :
    (nextOf (exec .rdstatus (small .done (some zeroBuffer)))).map State.replies = some [.status 0x0000010b] := by decide

theorem test_rdstatus_malformed :
    (nextOf (exec .rdstatus (small .malformed (some shortBuffer)))).map State.replies =
      some [.status 0x00000114] := by decide

theorem test_rdout_done :
    (nextOf (exec (.rdout 7) { small .done (some zeroBuffer) with out := outWords countingDigest })).map State.replies =
      some [.out 7 0x1c1d1e1f] := by decide

/-! ### DECODE (section 2.1) -/

/-- Every count byte distinct, and the seed not reversed. -/
theorem test_decode_fields :
    (nextOf (exec .decode (small .start (some (InputBuffer.ofBytes (countingJob [8, 7, 6, 5, 4, 3, 2, 1])))))).map
      (fun t => (t.phase, t.n, t.i, t.state)) = some (.seeded, 0x0102030405060708, 0, countingDigest) := by
  decide +kernel

/-- 39 bytes fail, with the count not extracted. -/
theorem test_decode_39_bytes :
    (nextOf (exec .decode (small .start (some (InputBuffer.ofBytes ((countingJob [5, 0, 0, 0, 0, 0, 0, 0]).take 39)))))).map
      (fun t => (t.phase, t.n, t.len, t.status)) = some (.malformed, 0, some 39, 0x00000114) := by decide +kernel

/-- R74: P4's job, encoded. -/
theorem test_job_encoding :
    Job.encode ⟨2, countingDigest, [0xde, 0xad, 0xbe, 0xef]⟩ =
      [2, 0, 0, 0, 0, 0, 0, 0] ++ countingBytes ++ [0xde, 0xad, 0xbe, 0xef] := by decide +kernel

/-! ### Hash256 and HASHSTEP (sections 2.2 and 2.3; 41_hash256.md R92 to R95, R103) -/

theorem test_logical_functions :
    ch 0xffff0000 0x12345678 0x9abcdef0 = 0x1234def0 ∧ maj 0xffff0000 0x12345678 0x9abcdef0 = 0x9abc5670 ∧
      bsig0 1 = 0x40080400 ∧ bsig1 1 = 0x04200080 ∧ ssig0 0x80000000 = 0x11002000 ∧ ssig1 0x80000000 = 0x00205000 ∧
      ssig0 0xffffffff = 0x1fffffff ∧ ssig1 0xffffffff = 0x003fffff ∧ ssig0 0x100 = 0x00400022 ∧
      ssig1 0x100 = 0x00a00000 := by decide +kernel

/-- The first 64 primes. -/
def primes64 : List Nat := (List.range 312).filter fun p => decide (2 ≤ p) && (List.range p).all fun d => d < 2 || p % d != 0

/-- R94: K[t] is the first 32 bits of the fractional part of the cube root of the (t+1)-th prime: with the integer part q
of that root, (q*2^32 + K[t])^3 <= p*2^96 < (q*2^32 + K[t] + 1)^3. -/
theorem test_round_constants_from_formula :
    primes64.length = 64 ∧ roundConstants.length = 64 ∧
      (primes64.zip roundConstants).all (fun pk =>
        (List.range 7).any fun q =>
          decide ((q * 2 ^ 32 + pk.2.toNat) ^ 3 ≤ pk.1 * 2 ^ 96) &&
            decide (pk.1 * 2 ^ 96 < (q * 2 ^ 32 + pk.2.toNat + 1) ^ 3)) = true := by decide +kernel

/-- R95: IV[j] likewise, from the square root of the (j+1)-th prime. -/
theorem test_initial_hash_from_formula :
    ((primes64.take 8).zip [initialHash.a, initialHash.b, initialHash.c, initialHash.d, initialHash.e, initialHash.f,
      initialHash.g, initialHash.h]).all (fun pk =>
        (List.range 5).any fun q =>
          decide ((q * 2 ^ 32 + pk.2.toNat) ^ 2 ≤ pk.1 * 2 ^ 64) &&
            decide (pk.1 * 2 ^ 64 < (q * 2 ^ 32 + pk.2.toNat + 1) ^ 2)) = true := by decide +kernel

/-- W[16..23] of `00 01 ... 1f`. -/
theorem test_schedule_counting :
    ((schedule countingDigest).drop 16).take 8 =
      [0x4f0a6dd0, 0x5a38f75e, 0xdf656fe8, 0xd2063ad7, 0x937f0d03, 0x61d08055, 0xf95ade26, 0xcc6014e1] := by
  decide +kernel

/-- R103: the working variables after round 0 of `[0xFF; 32]`. -/
theorem test_round_zero :
    compressRound initialHash (0x428a2f98, 0xffffffff) =
      ⟨0xfc08884c, 0x6a09e667, 0xbb67ae85, 0x3c6ef372, 0x98c7e2a1, 0x510e527f, 0x9b05688c, 0x1f83d9ab⟩ := by
  decide +kernel

theorem test_hash256_ones :
    finalHash onesDigest =
      #v[0xaf961376, 0x0f72635f, 0xbdb44a5a, 0x0a63c39f, 0x12af30f9, 0x50a6ee5c, 0x971be188, 0xe89c4051] := by
  decide +kernel

theorem test_hash256_counting :
    finalHash countingDigest =
      #v[0x630dcd29, 0x66c43366, 0x91125448, 0xbbb25b4f, 0xf412a49c, 0x732db2c8, 0xabc1b858, 0x1bd710dd] := by
  decide +kernel

/-- One HASHSTEP of P2's zero seed: byte 0 is the top byte of the first word `66687aad`, byte 31 the last of `0d5f2925`. -/
theorem test_hashstep_zero :
    (nextOf (exec .hashstep { small .seeded (some zeroBuffer) with n := 1 })).map
      (fun t => (t.i, t.state[0], t.state[1], t.state[31])) = some (1, 0x66, 0x68, 0x25) := by decide +kernel

/-- The counter at its top does not wrap. -/
theorem test_hashstep_top_count :
    (nextOf (exec .hashstep
      { small .seeded (some zeroBuffer) with n := 0xffffffffffffffff, i := 0xfffffffffffffffe })).map State.i =
        some 0xffffffffffffffff := by decide +kernel

/-! ### FINALIZE and ENCODE (sections 2.3 and 2.4) -/

/-- N = 0: FINALIZE at once, with STATE as it was; HASHSTEP is not enabled. -/
theorem test_finalize_zero_count :
    (nextOf (exec .finalize { small .seeded (some zeroBuffer) with state := countingDigest })).map
      (fun t => (t.phase, t.state)) = some (.finalized, countingDigest) ∧
    (nextOf (exec .hashstep (small .seeded (some zeroBuffer)))).isNone = true := by decide +kernel

/-- I = 4, N = 5: FINALIZE is not enabled. -/
theorem test_finalize_before_the_count :
    (nextOf (exec .finalize { small .seeded (some zeroBuffer) with n := 5, i := 4 })).isNone = true := by decide

theorem test_encode_counting :
    (nextOf (exec .encode { small .finalized (some zeroBuffer) with state := countingDigest })).map
      (fun t => (t.phase, t.otrace)) =
    some (.done, [(0, 0x00010203), (1, 0x04050607), (2, 0x08090a0b), (3, 0x0c0d0e0f), (4, 0x10111213), (5, 0x14151617),
      (6, 0x18191a1b), (7, 0x1c1d1e1f)]) := by decide +kernel

/-- R73: the sink's line for word 0 with value 0x2a. -/
theorem test_sink_line : sinkLine false 0 0x0000002a = "public 0: 0x0000002a".toList := by decide +kernel

/-! ### The first step after reset -/

/-- What a table word places, the next step performs, evaluated. -/
theorem test_first_step_performs_the_placed_word :
    [0, 1, 2, 0x11, 0x80, 0x88, 0x90].map (fun w => (nextOf (step (State.reset.withFetchWord 8 w))).map State.phase) =
      [some .seeded, some .seeded, some .done, some .finalized, some .start, some .start, some .start] := by
  decide +kernel

/-- With nothing placed the core waits for LOAD. -/
theorem test_reset_waits : (nextOf (step State.reset)).map State.phase = some .start := by decide

/-! ### Witnesses: for each statement with hypotheses, a state and operands that meet them -/

/-- A launch state for 40 zero bytes. -/
theorem witness_launch : (small .start (some zeroBuffer)).Launch zeroBuffer ∧ 40 ≤ zeroBuffer.len :=
  ⟨⟨rfl, rfl, rfl, rfl⟩, by decide⟩

/-- A launch state for 39 bytes. -/
theorem witness_launch_short : (small .start (some shortBuffer)).Launch shortBuffer ∧ shortBuffer.len < 40 :=
  ⟨⟨rfl, rfl, rfl, rfl⟩, by decide⟩

/-- The invariant, in START with a buffer bound and the run not ended. -/
theorem witness_inv_start :
    (small .start (some zeroBuffer)).Inv ∧ (small .start (some zeroBuffer)).ibuf ≠ none ∧
      ¬ (small .start (some zeroBuffer)).ended ∧ (small .start (some zeroBuffer)).turns = [] :=
  ⟨⟨rfl, by intro b h; cases h; decide, [], rfl⟩, by decide, by simp [State.ended, small], rfl⟩

/-- The invariant, in DONE: N = 0 and the zero seed (P2's end state); STATUS.DONE is 1. -/
theorem witness_inv_done :
    ({ small .done (some zeroBuffer) with
        otrace := outputWrites (Vector.replicate 32 0), sinkRx := outputWrites (Vector.replicate 32 0) } : State).Inv ∧
      (small .done (some zeroBuffer)).status.getLsbD 3 = true :=
  ⟨⟨⟨zeroBuffer, rfl, ⟨by decide, by decide +kernel, by decide, by decide +kernel⟩, rfl, by decide +kernel, rfl⟩,
    by intro b h; cases h; decide, [], rfl⟩, by decide⟩

/-- The invariant, in MALFORMED; STATUS.ERR is 1. -/
theorem witness_inv_malformed :
    (small .malformed (some shortBuffer)).Inv ∧ (small .malformed (some shortBuffer)).status.extractLsb' 4 4 = 1 :=
  ⟨⟨⟨shortBuffer, rfl, by decide, rfl⟩, by intro b h; cases h; decide, [], rfl⟩, by decide⟩

/-- StepKeepsInvariant: a state that meets the invariant and steps. -/
theorem witness_step_from_inv :
    (small .start (some zeroBuffer)).Inv ∧ ∃ t, step (small .start (some zeroBuffer)) = .next t :=
  ⟨witness_inv_start.1, ⟨_, rfl⟩⟩

/-- StatusFields: two states with the same PHASE and binding that differ elsewhere. -/
theorem witness_same_status :
    (small .seeded (some zeroBuffer)).phase = ({ small .seeded (some shortBuffer) with n := 1 } : State).phase ∧
      (small .seeded (some zeroBuffer)).ibuf.isSome =
        ({ small .seeded (some shortBuffer) with n := 1 } : State).ibuf.isSome := by decide

/-- StatusFields: a bit position above 8. -/
theorem witness_reserved_status_bit : 9 ≤ 9 ∧ 9 ≤ 31 := by decide

/-- ResetForgetsTheRun: two different states that agree on the model's own fields. -/
theorem witness_reset_pair :
    (small .seeded (some zeroBuffer)).turns = (small .done none).turns ∧
      (small .seeded (some zeroBuffer)).replies = (small .done none).replies ∧
      (small .seeded (some zeroBuffer)).sinkRx = (small .done none).sinkRx ∧
      (small .seeded (some zeroBuffer)).draws = (small .done none).draws := by decide

/-- LoadBindsBuffer, DecodeIsTheDecoderFunction: LOAD's condition, for the empty buffer and for 40 bytes. -/
theorem witness_load :
    (small .start none).phase = .start ∧ (small .start none).ibuf = none ∧
      (Instr.load []).wellFormed = true ∧ (Instr.load (List.replicate 40 0)).wellFormed = true := by decide

/-- LoadBindsBuffer, second clause, and HostOperationFrames: a LOAD that answers, with an offset at LEN. -/
theorem witness_load_next : (∃ t, exec (.load [7]) (small .start none) = .next t) ∧ [(7 : Byte)].length ≤ 1 :=
  ⟨⟨_, rfl⟩, by decide⟩

/-- LoadRefusedElsewhere: LOAD with a buffer bound. -/
theorem witness_load_refused :
    ¬ ((small .start (some zeroBuffer)).phase = .start ∧ (small .start (some zeroBuffer)).ibuf = none) := by decide

/-- RdoutInDone. -/
theorem witness_done : (small .done (some zeroBuffer)).phase = .done := rfl

/-- RdoutOutsideDone. -/
theorem witness_not_done : (small .start none).phase ≠ .done := by decide

/-- HostReadsHideTheChain, HostOperationFrames: host reads, which answer. -/
theorem witness_host_reads :
    (Instr.rdout 7 = .rdstatus ∨ ∃ k, Instr.rdout 7 = .rdout k) ∧ (∃ t, exec .rdstatus (small .start none) = .next t) ∧
      (∃ t, exec (.rdout 7) (small .done none) = .next t) ∧ (∃ t, exec .reset (small .done none) = .next t) :=
  ⟨.inr ⟨7, rfl⟩, ⟨_, rfl⟩, ⟨_, rfl⟩, ⟨_, rfl⟩⟩

/-- DecodeAsSpecified and MalformedInputEntry: DECODE at LEN 39 and at LEN 40. -/
theorem witness_decode_boundary :
    (small .start (some shortBuffer)).phase = .start ∧ shortBuffer.len < 40 ∧
      (small .start (some zeroBuffer)).ibuf = some zeroBuffer ∧ 40 ≤ zeroBuffer.len := by decide

/-- CountIsLittleEndian, SeedIsCopiedInOrder, MalformedInputCause: a DECODE that answers at LEN 40; the last byte of each
field. -/
theorem witness_decode_next :
    (small .start (some zeroBuffer)).ibuf = some zeroBuffer ∧ 40 ≤ zeroBuffer.len ∧
      (∃ t, exec .decode (small .start (some zeroBuffer)) = .next t) ∧ 7 < 8 ∧ 31 < 32 :=
  ⟨rfl, by decide, ⟨_, exec_decode_ok rfl rfl (by decide)⟩, by decide, by decide⟩

/-- MalformedInputCause, first clause: DECODE of 39 bytes enters MALFORMED. -/
theorem witness_malformed_entered :
    ∃ t, exec .decode (small .start (some shortBuffer)) = .next t ∧
      (small .start (some shortBuffer)).phase ≠ .malformed ∧ t.phase = .malformed :=
  ⟨_, rfl, by decide, rfl⟩

/-- MalformedIsTerminal: a MALFORMED state, RESET leaving it, and a short buffer to load. -/
theorem witness_malformed :
    (small .malformed (some shortBuffer)).phase = .malformed ∧
      (∃ t, exec .reset (small .malformed (some shortBuffer)) = .next t ∧ t.phase ≠ .malformed) ∧
      (List.replicate 39 (0 : Byte)).length < 40 ∧ (Instr.load (List.replicate 39 0)).wellFormed = true :=
  ⟨rfl, ⟨_, rfl, by decide⟩, by decide, by decide⟩

/-- DecodeInjectiveOnFirst40, JobRoundTrip: buffers of 40 and of 41 bytes that agree on the first 40. -/
theorem witness_two_buffers :
    40 ≤ (List.replicate 40 (0 : Byte)).length ∧ 40 ≤ (List.replicate 40 (0 : Byte) ++ [1]).length ∧
      (List.replicate 40 (0 : Byte)).take 40 = (List.replicate 40 (0 : Byte) ++ [1]).take 40 := by decide

/-- HashstepAsSpecified, HashstepCountsDown: SEEDED with I below N, at the top of the range; the step answers. -/
theorem witness_hashstep :
    ∃ s : State, s.phase = .seeded ∧ s.i < s.n ∧ ∃ t, exec .hashstep s = .next t :=
  ⟨{ small .seeded (some zeroBuffer) with n := 0xffffffffffffffff, i := 0xfffffffffffffffe }, rfl, by decide,
    ⟨_, rfl⟩⟩

/-- FinalizeAsSpecified: SEEDED with I equal to N; the step answers. -/
theorem witness_finalize :
    (small .seeded (some zeroBuffer)).i = (small .seeded (some zeroBuffer)).n ∧
      ∃ t, exec .finalize (small .seeded (some zeroBuffer)) = .next t :=
  ⟨rfl, ⟨_, rfl⟩⟩

/-- EncodeAsSpecified and CoreOperationFrames: FINALIZED; the step answers. -/
theorem witness_encode :
    (small .finalized (some zeroBuffer)).phase = .finalized ∧
      ∃ t, exec .encode (small .finalized (some zeroBuffer)) = .next t :=
  ⟨rfl, ⟨_, rfl⟩⟩

/-- WordOperations: the least and the greatest shift amounts. -/
theorem witness_shift_amounts : (0 < 1 ∧ 1 < 32) ∧ (0 < 31 ∧ 31 < 32) := by decide

/-- ScheduleParsesBlock, ScheduleRecurrence, PaddedBlockFormat, HashOutputIsFinalHash, HashFunctionsAndConstants: the ends of
the index ranges. -/
theorem witness_indices :
    (0 < 64 ∧ 31 < 32) ∧ (16 ≤ 16 ∧ 16 < 64) ∧ (16 ≤ 63 ∧ 63 < 64) ∧ (9 ≤ 9 ∧ 14 ≤ 14) ∧ (33 ≤ 33 ∧ 55 < 56) ∧ (7 < 8 ∧ 3 < 4) := by decide

/-- ByteOrderFunctions: the greatest two-byte value. -/
theorem witness_two_byte_value : 65535 < 256 ^ 2 := by decide

/-- PhaseAdvancesByTable, OperationMap, WritersOfEachElement: an operation that answers, and changes IBUF. -/
theorem witness_exec_next :
    ∃ t, exec (.load []) (small .start none) = .next t ∧ t.ibuf ≠ (small .start none).ibuf :=
  ⟨_, rfl, by decide⟩

/-- WritersOfEachElement: HASHSTEP changes I; ENCODE changes OUT, OTRACE and what the sink received. -/
theorem witness_writers :
    (∃ t, exec .hashstep { small .seeded none with n := 1 } = .next t ∧ t.i ≠ 0) ∧
      (∃ t, exec .encode { small .finalized none with state := countingDigest } = .next t ∧
        t.out ≠ Vector.replicate 8 0 ∧ t.otrace ≠ [] ∧ t.sinkRx ≠ []) :=
  ⟨⟨_, rfl, by decide +kernel⟩, ⟨_, rfl, by decide +kernel, by decide +kernel, by decide +kernel⟩⟩

/-- EndedStateKept: a host read in DONE. -/
theorem witness_ended :
    (small .done (some zeroBuffer)).ended ∧ (∃ t, exec .rdstatus (small .done (some zeroBuffer)) = .next t) ∧
      Instr.rdstatus ≠ .reset :=
  ⟨.inl rfl, ⟨_, rfl⟩, by decide⟩

/-- NoStepFaults, second clause: a step the machine refuses. -/
theorem witness_step_refused :
    ∃ r, step { small .done (some zeroBuffer) with turns := [.host (.load [])] } = .refused r := ⟨_, rfl⟩

/-- SinkWritesAreNeverRecalled: the step that resets after a run. -/
theorem witness_step_reset :
    ∃ t, step { small .done (some zeroBuffer) with turns := [.host .reset], sinkRx := [(0, 1)] } = .next t ∧
      t.sinkRx = [(0, 1)] := ⟨_, rfl, rfl⟩

/-- StepPerformsHostMove. -/
theorem witness_host_turn :
    ({ small .start none with turns := [.host .reset, .core] } : State).turns = .host .reset :: [.core] := rfl

/-- StepPerformsSelectedOperation: each of its conditions, on the core's turn. -/
theorem witness_core_turn :
    (small .start (some zeroBuffer)).turns = [] ∧ decodeBytes [(small .finalized none).selector] = .ok .encode ∧
      (small .start (some zeroBuffer)).ibuf ≠ none ∧ (small .seeded none).i = (small .seeded none).n ∧
      ({ small .seeded none with n := 1 } : State).i < ({ small .seeded none with n := 1 } : State).n := by decide

/-- IdleStepKeepsState: waiting for LOAD, and ended. -/
theorem witness_idle :
    ((small .start none).phase = .start ∧ (small .start none).ibuf = none) ∧ (small .malformed none).ended :=
  ⟨⟨rfl, rfl⟩, .inr rfl⟩

/-- 40 bytes with the count 5 and a seed of zeros. -/
def fiveBuffer : InputBuffer := { len := 40, cells := [(0, 5)] }

/-- ExactlyCountHashsteps, LoopHoldsDigest: a launch state with count 5, at the last iteration k = 5 and at k = 0. -/
theorem witness_loop :
    (small .start (some fiveBuffer)).Launch fiveBuffer ∧ 40 ≤ fiveBuffer.len ∧ 5 ≤ fiveBuffer.count.toNat ∧
      0 ≤ fiveBuffer.count.toNat ∧ fiveBuffer.count.toNat = 5 :=
  ⟨⟨rfl, rfl, rfl, rfl⟩, by decide, by decide +kernel, Nat.zero_le _, by decide +kernel⟩

/-- ZeroCountOutputsSeed: a launch state with count 0, seed bytes 0, and the last word's index. -/
theorem witness_zero_count :
    (small .start (some zeroBuffer)).Launch zeroBuffer ∧ 40 ≤ zeroBuffer.len ∧ (∀ k, k < 8 → zeroBuffer.byte k = 0) ∧
      (∀ k, 8 ≤ k → k < 40 → zeroBuffer.byte k = 0) ∧ 7 < 8 :=
  ⟨⟨rfl, rfl, rfl, rfl⟩, by decide, fun _ _ => rfl, fun _ _ _ => rfl, by decide⟩

/-- 41 bytes that agree with `zeroBuffer` on bytes 0 to 39. -/
def tailBuffer : InputBuffer := { len := 41, cells := [(40, 1)] }

theorem zeroBuffer_agrees_with_tailBuffer : ∀ k, k < 40 → zeroBuffer.byte k = tailBuffer.byte k := by
  intro k hk
  have hne : ¬ 40 = k := by omega
  simp [InputBuffer.byte, zeroBuffer, tailBuffer, hne]

/-- RunDependsOnFirst40Bytes: two launch states. -/
theorem witness_two_launches :
    (small .start (some zeroBuffer)).Launch zeroBuffer ∧ (small .start (some tailBuffer)).Launch tailBuffer ∧
      40 ≤ zeroBuffer.len ∧ 40 ≤ tailBuffer.len ∧ ∀ k, k < 40 → zeroBuffer.byte k = tailBuffer.byte k :=
  ⟨⟨rfl, rfl, rfl, rfl⟩, ⟨rfl, rfl, rfl, rfl⟩, by decide, by decide, zeroBuffer_agrees_with_tailBuffer⟩

/-- TailIsIgnored: a bound state, another buffer, and a run of one step. -/
theorem witness_tail :
    (small .start (some zeroBuffer)).turns = [] ∧ (small .start (some zeroBuffer)).ibuf = some zeroBuffer ∧
      40 ≤ zeroBuffer.len ∧ 40 ≤ tailBuffer.len ∧ (∀ j, j < 40 → zeroBuffer.byte j = tailBuffer.byte j) ∧
      ∃ t, runSteps 1 (small .start (some zeroBuffer)) = .next t :=
  ⟨rfl, rfl, by decide, by decide, zeroBuffer_agrees_with_tailBuffer, ⟨_, rfl⟩⟩

/-- BoundRunProgresses: the invariant, bound, not ended, on the core's turn and on the turn of a host read. -/
theorem witness_bound_turns :
    ({ small .start (some zeroBuffer) with turns := [.core] } : State).Inv ∧
      ¬ ({ small .start (some zeroBuffer) with turns := [.core] } : State).ended ∧
      ({ small .start (some zeroBuffer) with turns := [.host (.rdout 7)] } : State).Inv ∧
      ¬ ({ small .start (some zeroBuffer) with turns := [.host (.rdout 7)] } : State).ended :=
  ⟨⟨rfl, witness_inv_start.1.buffer, [], rfl⟩, witness_inv_start.2.2.1,
    ⟨rfl, witness_inv_start.1.buffer, [], rfl⟩, witness_inv_start.2.2.1⟩

/-- Turns with host reads before, between and after three moves of the core. -/
def readingTurns : List Turn := [.host .rdstatus, .core, .host (.rdout 7), .core, .core, .host (.rdout 0)]

/-- RunWithHostReads: of five steps three are the core's, of four two; with no turn pending all are. -/
theorem witness_reading_turns :
    readingTurns.all Turn.coreOrRead = true ∧ coreMoves 5 readingTurns = 3 ∧ coreMoves 4 readingTurns = 2 ∧
      coreMoves 6 readingTurns = 3 ∧ coreMoves 7 readingTurns = 4 ∧ [Turn.host .reset].all Turn.coreOrRead = false ∧
      [Turn.host (.load [])].all Turn.coreOrRead = false := by decide

/-- RunWithHostReads: a launch state whose turns hold reads, and one with none, on buffers that agree on bytes 0 to 39, each
with the N + 3 core moves of its run. -/
theorem witness_reading_runs :
    State.Launch { { small .start (some zeroBuffer) with turns := readingTurns } with turns := [] } zeroBuffer ∧
      State.Launch { small .start (some tailBuffer) with turns := [] } tailBuffer ∧
      40 ≤ zeroBuffer.len ∧ 40 ≤ tailBuffer.len ∧ (∀ k, k < 40 → zeroBuffer.byte k = tailBuffer.byte k) ∧
      zeroBuffer.count.toNat + 3 ≤ coreMoves 5 readingTurns ∧ tailBuffer.count.toNat + 3 ≤ coreMoves 3 [] :=
  ⟨⟨rfl, rfl, rfl, rfl⟩, ⟨rfl, rfl, rfl, rfl⟩, by decide, by decide, zeroBuffer_agrees_with_tailBuffer,
    by decide +kernel, by decide +kernel⟩

/-- SelectorMatchesTable: a selector that names an operation. -/
theorem witness_selector : (0x11 : Byte).getLsbD 7 = false ∧ decodeBytes [0x11] = .ok .finalize := by decide

/-- DecodeOfEncode, PlacedWordRunsNext: an operation the decoder reads, well-formed. -/
theorem witness_table_word : decodeTableWord 8 0x9f = some (.rdout 7) ∧ (Instr.rdout 7).wellFormed = true := by decide

end Sys2Proof.Tests
end

section
/-!
The byte-order functions of R13: `le` and `be` as weighted sums, and `toLe`, `toBe` as their unique inverses.
-/

namespace Sys2Proof

/-- R13: `le` weighs byte j by `256 ^ j`. -/
theorem le_eq_sum (bs : List Byte) : le bs = ∑ j : Fin bs.length, bs[j].toNat * 256 ^ j.val := by
  induction bs with
  | nil => rfl
  | cons b bs ih =>
    have hshift : 256 * le bs = ∑ j : Fin bs.length, bs[j].toNat * 256 ^ (j.val + 1) := by
      rw [ih, Finset.mul_sum]
      exact Finset.sum_congr rfl fun j _ => by ring
    calc le (b :: bs)
        = b.toNat + 256 * le bs := le_cons b bs
      _ = b.toNat * 256 ^ 0 + ∑ j : Fin bs.length, bs[j].toNat * 256 ^ (j.val + 1) := by rw [hshift, pow_zero, mul_one]
      _ = ∑ j : Fin (bs.length + 1), (b :: bs)[j].toNat * 256 ^ j.val := by rw [Fin.sum_univ_succ]; rfl

/-- A byte appended at the end is the most significant one of `le`. -/
theorem le_concat (bs : List Byte) (b : Byte) : le (bs ++ [b]) = le bs + b.toNat * 256 ^ bs.length := by
  induction bs with
  | nil => simp
  | cons c bs ih =>
    simp only [List.cons_append, le_cons, ih, List.length_cons]
    ring

/-- The first byte is the most significant one of `be`. -/
theorem be_cons (b : Byte) (bs : List Byte) : be (b :: bs) = b.toNat * 256 ^ bs.length + be bs := by
  simp only [be, List.reverse_cons, le_concat, List.length_reverse, add_comm]

/-- R13: `be` weighs byte j of k by `256 ^ (k - 1 - j)`. -/
theorem be_eq_sum (bs : List Byte) :
    be bs = ∑ j : Fin bs.length, bs[j].toNat * 256 ^ (bs.length - 1 - j.val) := by
  induction bs with
  | nil => rfl
  | cons b bs ih =>
    have hweight (j : Fin bs.length) : bs.length - 1 - j.val = bs.length + 1 - 1 - (j.val + 1) := by omega
    calc be (b :: bs)
        = b.toNat * 256 ^ bs.length + ∑ j : Fin bs.length, bs[j].toNat * 256 ^ (bs.length - 1 - j.val) := by
          rw [be_cons, ih]
      _ = b.toNat * 256 ^ bs.length + ∑ j : Fin bs.length, bs[j].toNat * 256 ^ (bs.length + 1 - 1 - (j.val + 1)) := by
          simp only [hweight]
      _ = ∑ j : Fin (bs.length + 1), (b :: bs)[j].toNat * 256 ^ (bs.length + 1 - 1 - j.val) := by
          rw [Fin.sum_univ_succ]; rfl

/-- R13: `toLe k v` is the only `k`-byte sequence whose `le` is `v`. -/
theorem length_eq_and_le_eq_iff {k v : Nat} (hv : v < 256 ^ k) (bs : List Byte) :
    (bs.length = k ∧ le bs = v) ↔ bs = toLe k v := by
  constructor
  · rintro ⟨rfl, rfl⟩
    exact (toLe_le bs).symm
  · rintro rfl
    exact ⟨toLe_length k v, le_toLe k v hv⟩

/-- R13: `toBe k v` is the only `k`-byte sequence whose `be` is `v`, since `be` is `le` of the reversed sequence. -/
theorem length_eq_and_be_eq_iff {k v : Nat} (hv : v < 256 ^ k) (bs : List Byte) :
    (bs.length = k ∧ be bs = v) ↔ bs = toBe k v := by
  calc (bs.length = k ∧ be bs = v)
      ↔ (bs.reverse.length = k ∧ le bs.reverse = v) := by rw [List.length_reverse, be]
    _ ↔ bs.reverse = toLe k v := length_eq_and_le_eq_iff hv bs.reverse
    _ ↔ bs = toBe k v := List.reverse_eq_iff

/-- Settles O32: the sums by induction on the bytes, the inverses from the round trips of `toLe`. -/
theorem byteOrderFunctions : Obligations.ByteOrderFunctions :=
  ⟨le_eq_sum, be_eq_sum, fun _ _ hv => length_eq_and_le_eq_iff hv, fun _ _ hv => length_eq_and_be_eq_iff hv⟩

end Sys2Proof
end

section
/-!
What an operation that answers can change, element by element (10_state.md R20, "written by"): each element is as before,
or the operation is one of its writers.
-/

namespace Sys2Proof.Machine

variable {i : Instr} {s t : State}

theorem ExecCase.ibuf_eq_or_writer (h : ExecCase s i t) :
    t.ibuf = s.ibuf ∨ i = .reset ∨ ∃ buf, i = .load buf := by
  cases h with
  | reset => exact .inr (.inl rfl)
  | load buf => exact .inr (.inr ⟨buf, rfl⟩)
  | _ => exact .inl rfl

theorem ExecCase.n_eq_or_writer (h : ExecCase s i t) : t.n = s.n ∨ i = .reset ∨ i = .decode := by
  cases h with
  | reset => exact .inr (.inl rfl)
  | decodeOk => exact .inr (.inr rfl)
  | _ => exact .inl rfl

/-- I and STATE have the same writers. -/
theorem ExecCase.chain_eq_or_writer (h : ExecCase s i t) :
    (t.i = s.i ∧ t.state = s.state) ∨ i = .reset ∨ i = .decode ∨ i = .hashstep := by
  cases h with
  | reset => exact .inr (.inl rfl)
  | decodeOk => exact .inr (.inr (.inl rfl))
  | hashstep => exact .inr (.inr (.inr rfl))
  | _ => exact .inl ⟨rfl, rfl⟩

/-- OUT and OTRACE have the same writers. -/
theorem ExecCase.output_eq_or_writer (h : ExecCase s i t) :
    (t.out = s.out ∧ t.otrace = s.otrace) ∨ i = .reset ∨ i = .encode := by
  cases h with
  | reset => exact .inr (.inl rfl)
  | encode => exact .inr (.inr rfl)
  | _ => exact .inl ⟨rfl, rfl⟩

/-- Log entry 6: RESET recalls nothing from the sink. -/
theorem ExecCase.sinkRx_eq_or_writer (h : ExecCase s i t) : t.sinkRx = s.sinkRx ∨ i = .encode := by
  cases h with
  | encode => exact .inr rfl
  | _ => exact .inl rfl

/-- Log entry 5: a turn is used up by the step, never by the operation. -/
theorem ExecCase.turns_eq (h : ExecCase s i t) : t.turns = s.turns := by
  cases h <;> rfl

/-- Log entries 2 to 4: a core operation hands the host nothing and draws no free value. -/
theorem ExecCase.records_eq_of_core (h : ExecCase s i t) (hi : isCoreOp i = true) :
    t.replies = s.replies ∧ t.draws = s.draws := by
  cases h with
  | decodeShort | decodeOk | hashstep | finalize | encode => exact ⟨rfl, rfl⟩
  | _ => cases hi

theorem ExecCase.phase_eq_of_hashstep (h : ExecCase s .hashstep t) : t.phase = s.phase := by
  cases h with
  | hashstep => rfl

/-- Settles O38: every clause is the negative form of an element's writers. -/
theorem writersOfEachElement : Obligations.WritersOfEachElement := by
  intro i s t hnext
  have h := exec_next hnext
  refine ⟨h.ibuf_eq_or_writer.resolve_left, h.n_eq_or_writer.resolve_left, ?_, ?_, ?_, ?_,
    h.sinkRx_eq_or_writer.resolve_left⟩
  · exact fun hne => h.chain_eq_or_writer.resolve_left fun heq => hne heq.1
  · exact fun hne => h.chain_eq_or_writer.resolve_left fun heq => hne heq.2
  · exact fun hne => h.output_eq_or_writer.resolve_left fun heq => hne heq.1
  · exact fun hne => h.output_eq_or_writer.resolve_left fun heq => hne heq.2

/-! ### Frames of the core's and the host's operations -/

theorem State.len_congr (h : t.ibuf = s.ibuf) : t.len = s.len := by
  rw [State.len, h, State.len]

/-- R14: a read depends on the bound buffer alone. -/
theorem memRead_congr (h : t.ibuf = s.ibuf) (k n : Nat) : memRead k n t = memRead k n s := by
  rw [memRead, h, memRead]

/-- With no buffer bound no offset is readable (log entry 20). -/
theorem memRead_unbound (h : s.ibuf = none) (k n : Nat) : memRead k n s = .error .outsideBuffer :=
  memRead_outside (by simp [h])

/-- Settles O35: a core operation is neither RESET nor LOAD, so an element it is not said to write has no writer left. -/
theorem coreOperationFrames : Obligations.CoreOperationFrames := by
  intro i s t hnext hi
  have h := exec_next hnext
  have hreset : i ≠ .reset := by rintro rfl; cases hi
  have hload (buf : List Byte) : i ≠ .load buf := by rintro rfl; cases hi
  have hibuf : t.ibuf = s.ibuf := h.ibuf_eq_or_writer.resolve_right (by simp [hreset, hload])
  obtain ⟨hreplies, hdraws⟩ := h.records_eq_of_core hi
  refine ⟨hibuf, State.len_congr hibuf, fun a => memRead_congr hibuf a 1, h.turns_eq, hreplies, hdraws, ?_, ?_, ?_, ?_⟩
  · exact fun hdecode => h.n_eq_or_writer.resolve_right (by simp [hreset, hdecode])
  · exact fun hdecode hhash => h.chain_eq_or_writer.resolve_right (by simp [hreset, hdecode, hhash])
  · intro hencode
    obtain ⟨hout, hotrace⟩ := h.output_eq_or_writer.resolve_right (by simp [hreset, hencode])
    exact ⟨hout, hotrace, h.sinkRx_eq_or_writer.resolve_right hencode⟩
  · rintro rfl
    exact h.phase_eq_of_hashstep

/-- What a host read answers differs in the model's replies and draws alone. -/
theorem exec_read_next (h : exec .rdstatus s = .next t ∨ ∃ k, exec (.rdout k) s = .next t) :
    ∃ rs d, t = { s with replies := rs, draws := d } := by
  rcases h with h | ⟨k, h⟩
  · obtain ⟨rs, d, he⟩ := exec_read (op := .rdstatus) rfl s
    exact ⟨rs, d, Host.Outcome.next.inj (h.symm.trans he)⟩
  · obtain ⟨rs, d, he⟩ := exec_read (op := .rdout k) rfl s
    exact ⟨rs, d, Host.Outcome.next.inj (h.symm.trans he)⟩

/-- Settles O12: a host read changes only the model's records, LOAD only IBUF, and after RESET no buffer is bound. -/
theorem hostOperationFrames : Obligations.HostOperationFrames := by
  refine ⟨?_, ?_, ?_⟩
  · intro s t h
    obtain ⟨rs, d, rfl⟩ := exec_read_next h
    exact ⟨rfl, rfl, rfl, rfl, rfl, rfl, rfl, rfl, rfl, rfl, rfl, fun a => memRead_congr rfl a 1⟩
  · intro s t buf hnext
    cases exec_next hnext with
    | load _ hp hb =>
      refine ⟨rfl, rfl, rfl, rfl, rfl, rfl, rfl, rfl, rfl, rfl, fun a ha => ?_⟩
      rw [memRead_unbound hb]
      refine memRead_outside fun b hbound => ?_
      cases hbound
      exact Nat.lt_succ_of_le ha
  · intro s t hnext
    cases exec_next hnext with
    | reset => exact ⟨rfl, rfl, rfl, fun a => memRead_unbound rfl a 1⟩

/-- Settles O36: each case of `ExecCase` is one row of R23's table, or an operation that keeps PHASE. -/
theorem phaseAdvancesByTable : Obligations.PhaseAdvancesByTable := by
  intro i s t hnext
  cases exec_next hnext with
  | decodeOk b hp hb hl => exact .inl ⟨rfl, hp, rfl, b, hb, hl⟩
  | decodeShort b hp hb hl => exact .inr (.inl ⟨rfl, hp, rfl, b, hb, hl⟩)
  | hashstep hp hlt => exact .inr (.inr (.inl ⟨rfl, hp, hp, hlt⟩))
  | finalize hp heq => exact .inr (.inr (.inr (.inl ⟨rfl, hp, rfl, heq⟩)))
  | encode hp => exact .inr (.inr (.inr (.inr (.inl ⟨rfl, hp, rfl⟩))))
  | reset => exact .inr (.inr (.inr (.inr (.inr (.inl ⟨rfl, rfl⟩)))))
  | rdstatus => exact .inr (.inr (.inr (.inr (.inr (.inr ⟨.inl rfl, rfl⟩)))))
  | rdoutDone k => exact .inr (.inr (.inr (.inr (.inr (.inr ⟨.inr (.inl ⟨k, rfl⟩), rfl⟩)))))
  | rdoutOther k => exact .inr (.inr (.inr (.inr (.inr (.inr ⟨.inr (.inl ⟨k, rfl⟩), rfl⟩)))))
  | load buf => exact .inr (.inr (.inr (.inr (.inr (.inr ⟨.inr (.inr ⟨buf, rfl⟩), rfl⟩)))))

/-- Settles O10: the word is the next draw's free value. -/
theorem rdoutOutsideDone : Obligations.RdoutOutsideDone :=
  fun s k hp => ⟨Config.freeWord s.draws, exec_rdout_other k hp⟩

end Sys2Proof.Machine
end

section
/-!
The fields of STATUS (10_state.md R29), and the values of the state after reset (R34).
-/

namespace Sys2Proof.Machine

theorem State.status_phaseField (s : State) : s.status.extractLsb' 0 3 = s.phase.code :=
  BitVec.extractLsb'_append_eq_right

theorem State.status_doneField (s : State) : s.status.getLsbD 3 = true ↔ s.phase = .done := by
  rw [State.status_eq]
  cases s.phase <;> cases s.ibuf.isSome <;> decide

theorem State.status_errField (s : State) : s.status.extractLsb' 4 4 = s.phase.errCode := by
  rw [State.status_eq]
  cases s.phase <;> cases s.ibuf.isSome <;> rfl

theorem State.status_boundField (s : State) : s.status.getLsbD 8 = s.ibuf.isSome := by
  rw [State.status_eq]
  cases s.phase <;> cases s.ibuf.isSome <;> rfl

/-- R29: bits 31:9 are 0. -/
theorem State.status_reserved (s : State) {k : Nat} (hk : 9 ≤ k) : s.status.getLsbD k = false := by
  have hlt : s.status.toNat < 2 ^ 9 := by
    rw [State.status_eq]
    cases s.phase <;> cases s.ibuf.isSome <;> decide
  exact Nat.testBit_lt_two_pow (hlt.trans_le (Nat.pow_le_pow_right two_pos hk))

/-- R29: STATUS has no storage of its own. -/
theorem State.status_congr {s t : State} (hp : s.phase = t.phase) (hb : s.ibuf.isSome = t.ibuf.isSome) :
    s.status = t.status := by
  rw [State.status, State.boundBit, hp, hb, State.status, State.boundBit]

theorem Phase.errCode_toNat (p : Phase) : p.errCode.toNat = if p = .malformed then 1 else 0 := by
  cases p <;> rfl

theorem State.status_reset : State.reset.status = 0x00000000 := State.status_eq State.reset

/-- Settles O2: one lemma per field of STATUS. -/
theorem statusFields : Obligations.StatusFields := by
  refine ⟨fun s => ⟨s.status_phaseField, ?_, s.status_doneField, ?_, ?_, fun _ => s.status_reserved⟩,
    fun _ _ => State.status_congr, State.status_reset⟩
  · cases s.phase <;> rfl
  · rw [s.status_errField, s.phase.errCode_toNat]
  · rw [s.status_boundField, Option.isSome_iff_exists]

/-- Settles O1: `State.reset` holds these values, and STATUS reads them. -/
theorem resetStateValues : Obligations.ResetStateValues := ⟨rfl, rfl, rfl, rfl, State.status_reset⟩

end Sys2Proof.Machine
end

section
/-!
The invariant of the reachable states (10_state.md R36): what it says in each phase, that the state after reset meets it,
and that every operation, the idle step and the turn used up keep it.
-/

namespace Sys2Proof.Machine

variable {s t : State} {b : InputBuffer}

/-! ### R36 in each phase -/

theorem State.phaseInv_start (hp : s.phase = .start) : s.PhaseInv ↔ s.otrace = [] := by
  rw [State.PhaseInv, hp]

theorem State.phaseInv_seeded (hp : s.phase = .seeded) :
    s.PhaseInv ↔ ∃ b, s.ibuf = some b ∧ s.OnChain b ∧ s.otrace = [] := by
  rw [State.PhaseInv, hp]

theorem State.phaseInv_finalized (hp : s.phase = .finalized) :
    s.PhaseInv ↔ ∃ b, s.ibuf = some b ∧ s.OnChain b ∧ s.i = s.n ∧ s.otrace = [] := by
  rw [State.PhaseInv, hp]

theorem State.phaseInv_done (hp : s.phase = .done) :
    s.PhaseInv ↔ ∃ b, s.ibuf = some b ∧ s.OnChain b ∧ s.i = s.n ∧ s.out = outWords s.state ∧
      s.otrace = outputWrites s.state := by
  rw [State.PhaseInv, hp]

theorem State.phaseInv_malformed (hp : s.phase = .malformed) :
    s.PhaseInv ↔ ∃ b, s.ibuf = some b ∧ b.len < Config.minLen ∧ s.otrace = [] := by
  rw [State.PhaseInv, hp]

/-! ### The chain -/

/-- What `OnChain` says depends on N, I and STATE alone. -/
theorem State.OnChain.congr (h : s.OnChain b) (hn : t.n = s.n) (hi : t.i = s.i) (hd : t.state = s.state) :
    t.OnChain b where
  len := h.len
  n := hn.trans h.n
  le := by rw [hi, hn]; exact h.le
  state := by rw [hd, hi]; exact h.state

/-- R80, R113: after DECODE of a long enough buffer STATE is Digest_0. -/
theorem onChain_decoded (s : State) (hl : Config.minLen ≤ b.len) :
    State.OnChain { s with n := b.count, i := 0, state := b.seed, phase := .seeded } b where
  len := hl
  n := rfl
  le := BitVec.le_def.mpr (Nat.zero_le _)
  state := rfl

/-- R110, R113: HASHSTEP takes Digest_I to Digest_(I+1), and I stays at most N. -/
theorem State.OnChain.hashstep (h : s.OnChain b) (hlt : s.i < s.n) :
    State.OnChain { s with state := hash256 s.state, i := s.i + 1 } b where
  len := h.len
  n := h.n
  le := by
    rw [BitVec.le_def, succ_toNat_of_lt hlt]
    exact BitVec.lt_def.mp hlt
  state := by
    simp only [succ_toNat_of_lt hlt, hashChain, ← h.state]

/-! ### What keeps the invariant -/

/-- The invariant says nothing of the turns to come. -/
theorem State.Inv.advance (h : s.Inv) : s.advance.Inv where
  phase := phaseInv_congr h.phase rfl rfl rfl rfl rfl rfl rfl
  buffer := h.buffer
  sink := h.sink

/-- R36, by operation. -/
theorem ExecCase.phaseInv {i : Instr} (h : ExecCase s i t) (hs : s.PhaseInv) : t.PhaseInv := by
  cases h with
  | reset => exact (State.phaseInv_start rfl).mpr rfl
  | load buf hp => exact (State.phaseInv_start (by exact hp)).mpr ((State.phaseInv_start hp).mp hs)
  | rdstatus | rdoutDone | rdoutOther => exact phaseInv_congr hs rfl rfl rfl rfl rfl rfl rfl
  | decodeShort b hp hb hl =>
    exact (State.phaseInv_malformed rfl).mpr ⟨b, hb, hl, (State.phaseInv_start hp).mp hs⟩
  | decodeOk b hp hb hl =>
    exact (State.phaseInv_seeded rfl).mpr ⟨b, hb, onChain_decoded s hl, (State.phaseInv_start hp).mp hs⟩
  | hashstep hp hlt =>
    obtain ⟨b, hb, hchain, hotrace⟩ := (State.phaseInv_seeded hp).mp hs
    exact (State.phaseInv_seeded (by exact hp)).mpr ⟨b, hb, hchain.hashstep hlt, hotrace⟩
  | finalize hp heq =>
    obtain ⟨b, hb, hchain, hotrace⟩ := (State.phaseInv_seeded hp).mp hs
    exact (State.phaseInv_finalized rfl).mpr ⟨b, hb, hchain.congr rfl rfl rfl, heq, hotrace⟩
  | encode hp =>
    obtain ⟨b, hb, hchain, heq, hotrace⟩ := (State.phaseInv_finalized hp).mp hs
    refine (State.phaseInv_done rfl).mpr ⟨b, hb, hchain.congr rfl rfl rfl, heq, rfl, ?_⟩
    rw [hotrace, List.nil_append]

/-- Log entry 12: LOAD binds a canonical buffer, and no other operation binds one. -/
theorem ExecCase.buffer_wf {i : Instr} (h : ExecCase s i t) (hs : ∀ b, s.ibuf = some b → b.wf = true) :
    ∀ b, t.ibuf = some b → b.wf = true := by
  cases h with
  | reset => intro b hb; cases hb
  | load buf => intro b hb; cases hb; exact InputBuffer.wf_ofBytes buf
  | _ => exact hs

/-- Log entry 6: ENCODE hands the sink what it adds to OTRACE; RESET empties OTRACE and recalls nothing. -/
theorem ExecCase.sink_received {i : Instr} (h : ExecCase s i t) (hs : ∃ before, s.sinkRx = before ++ s.otrace) :
    ∃ before, t.sinkRx = before ++ t.otrace := by
  obtain ⟨before, hbefore⟩ := hs
  cases h with
  | reset => exact ⟨s.sinkRx, (List.append_nil _).symm⟩
  | encode => exact ⟨before, by rw [hbefore, List.append_assoc]⟩
  | _ => exact ⟨before, hbefore⟩

theorem ExecCase.inv {i : Instr} (h : ExecCase s i t) (hs : s.Inv) : t.Inv where
  phase := h.phaseInv hs.phase
  buffer := h.buffer_wf hs.buffer
  sink := h.sink_received hs.sink

/-- Settles O46: in START with no buffer bound, OTRACE and the sink's record are empty. -/
theorem resetMeetsInvariant : Obligations.ResetMeetsInvariant where
  phase := (State.phaseInv_start rfl).mpr rfl
  buffer := fun _ hb => nomatch hb
  sink := ⟨[], rfl⟩

/-- Settles O47: a step uses up a turn, and then performs an operation or idles. -/
theorem stepKeepsInvariant : Obligations.StepKeepsInvariant := by
  intro s t hs hstep
  obtain ⟨i, _, hexec⟩ | ⟨_, rfl⟩ := step_next hstep
  · exact hexec.inv hs.advance
  · exact hs.advance

end Sys2Proof.Machine
end

section
/-!
The input-buffer space (20_memory.md): the form of what LOAD binds (R41), the count's bytes in the count (R43, R64), and
what STATUS tells the host of a run's outcome (R56).
-/

namespace Sys2Proof

/-- R13: the base-256 digits of `le bs` are the bytes, byte 0 least significant, and 0 above the last byte. -/
theorem le_div_pow_mod (bs : List Byte) (k : Nat) : le bs / 256 ^ k % 256 = (bs.getD k 0).toNat := by
  induction bs generalizing k with
  | nil => simp
  | cons b bs ih =>
    have hb : b.toNat < 256 := b.isLt
    cases k with
    | zero =>
      rw [le_cons, pow_zero, Nat.div_one, Nat.add_mul_mod_self_left, Nat.mod_eq_of_lt hb, List.getD_cons_zero]
    | succ k =>
      have htail : (b.toNat + 256 * le bs) / 256 = le bs := by omega
      rw [le_cons, pow_succ', ← Nat.div_div_eq_div_mul, htail, ih, List.getD_cons_succ]

end Sys2Proof

namespace Sys2Proof.Machine

variable {s t : State} {b : InputBuffer}

/-- Settles O6: a LOAD that answers binds `InputBuffer.ofBytes` of what was presented. -/
theorem boundBufferCanonical : Obligations.BoundBufferCanonical := by
  intro s t buf hnext
  cases exec_next hnext with
  | load => exact ⟨InputBuffer.ofBytes buf, rfl, InputBuffer.wf_ofBytes buf⟩

/-! ### The count -/

/-- R64: bits 8k+7 to 8k of the count are the byte at offset k. -/
theorem InputBuffer.count_extractLsb' (b : InputBuffer) {k : Nat} (hk : k < 8) :
    b.count.extractLsb' (8 * k) 8 = b.byte k := by
  have hbytes : b.count.toNat = le ((List.range 8).map b.byte) := b.count_toNat
  apply BitVec.eq_of_toNat_eq
  calc (b.count.extractLsb' (8 * k) 8).toNat
      = b.count.toNat / 256 ^ k % 256 := by
        simp only [BitVec.extractLsb'_toNat, Nat.shiftRight_eq_div_pow, pow_mul, Nat.reducePow]
    _ = (((List.range 8).map b.byte).getD k 0).toNat := by rw [hbytes, le_div_pow_mod]
    _ = (b.byte k).toNat := by simp [hk]

/-- R43: the count is the sum of its bytes, the one at offset k weighted by `2 ^ (8 * k)`. -/
theorem InputBuffer.count_toNat_eq_sum (b : InputBuffer) :
    b.count.toNat =
      (b.byte 0).toNat + (b.byte 1).toNat * 2 ^ 8 + (b.byte 2).toNat * 2 ^ 16 + (b.byte 3).toNat * 2 ^ 24 +
        (b.byte 4).toNat * 2 ^ 32 + (b.byte 5).toNat * 2 ^ 40 + (b.byte 6).toNat * 2 ^ 48 +
        (b.byte 7).toNat * 2 ^ 56 := by
  rw [b.count_toNat]
  simp only [le_cons, le_nil]
  ring

/-- R80: what a DECODE of a long enough buffer leaves. -/
theorem exec_decode_next_ok (hb : s.ibuf = some b) (hl : Config.minLen ≤ b.len) (hnext : exec .decode s = .next t) :
    t = { s with n := b.count, i := 0, state := b.seed, phase := .seeded } := by
  cases exec_next hnext with
  | decodeShort b' _ hb' hshort =>
    cases hb.symm.trans hb'
    exact absurd hl hshort.not_ge
  | decodeOk b' _ hb' =>
    cases hb.symm.trans hb'
    rfl

/-- Settles O14: DECODE leaves the buffer's count in N. -/
theorem countIsLittleEndian : Obligations.CountIsLittleEndian := by
  intro s t b hb hl hnext
  rw [exec_decode_next_ok hb hl hnext]
  exact ⟨fun _ => b.count_extractLsb', b.count_toNat_eq_sum⟩

/-! ### The outcome -/

/-- R113, R182: once the count is reached STATE is HashChain(N, seed). -/
theorem State.OnChain.state_of_count_reached (h : s.OnChain b) (heq : s.i = s.n) :
    s.state = hashChain s.n.toNat b.seed := heq ▸ h.state

/-- R29, R151: cause code 1 is MALFORMED's alone. -/
theorem State.status_errField_eq_one_iff (s : State) : s.status.extractLsb' 4 4 = 1 ↔ s.phase = .malformed := by
  rw [s.status_errField]
  cases s.phase <;> decide

/-- Settles O48: STATUS.DONE and STATUS.ERR each name a phase, and the invariant says the rest. -/
theorem statusTellsTheOutcome : Obligations.StatusTellsTheOutcome := by
  refine fun s hs => ⟨fun hdone => ?_, fun herr => ?_⟩
  · obtain ⟨b, hb, hchain, heq, hout, hotrace⟩ :=
      (State.phaseInv_done (s.status_doneField.mp hdone)).mp hs.phase
    rw [hb, Option.getD_some]
    exact ⟨hout, hotrace, hchain.state_of_count_reached heq⟩
  · obtain ⟨_, _, _, hotrace⟩ :=
      (State.phaseInv_malformed (s.status_errField_eq_one_iff.mp herr)).mp hs.phase
    exact hotrace

end Sys2Proof.Machine
end

section
/-!
The selection of an operation (30_encoding.md R69 to R71): the decoder reads every operation back from its encoding, a
selector byte names an operation only under that operation's row, and what a state's selector names is the one core
operation enabled there and what the step on the core's turn performs.
-/

namespace Sys2Proof

/-- Settles O55: one round trip per operation, RDOUT's for each of its eight indices. -/
theorem decodeOfEncode : Obligations.DecodeOfEncode := by
  intro i
  cases i with
  | reset => exact Laws.RoundTrip.reset
  | load buf => exact Laws.RoundTrip.load buf
  | rdstatus => exact Laws.RoundTrip.rdstatus
  | rdout k => exact Laws.RoundTrip.rdout k
  | decode => exact Laws.RoundTrip.decode
  | hashstep => exact Laws.RoundTrip.hashstep
  | finalize => exact Laws.RoundTrip.finalize
  | encode => exact Laws.RoundTrip.encode

/-- A byte with bit 7 clear is a core selector. -/
theorem decodeBytes_core {w : Byte} (h : w.getLsbD 7 = false) : decodeBytes [w] = decodeCore w := by
  rw [decodeBytes, h, if_neg Bool.false_ne_true, if_pos rfl]

/-- R69, R70: what the core's decoder names, by the rows of R70's table. -/
theorem decodeCore_eq_ok {w : Byte} {i : Instr} (h : decodeCore w = .ok i) :
    (i = .decode ∧ w.extractLsb' 0 3 = 0 ∧ w.getLsbD 3 = false) ∨
    (i = .hashstep ∧ w.extractLsb' 0 3 = 1 ∧ w.extractLsb' 4 2 = 0) ∨
    (i = .finalize ∧ w.extractLsb' 0 3 = 1 ∧ w.extractLsb' 4 2 = 1) ∨
    (i = .encode ∧ w.extractLsb' 0 3 = 2) := by
  unfold decodeCore at h
  split at h
  · cases h
  split at h
  next hcode =>
    split at h
    · cases h
    next hbound =>
      cases h
      exact .inl ⟨rfl, BitVec.eq_of_toNat_eq hcode, Bool.eq_false_iff.mpr hbound⟩
  next hcode =>
    split at h
    next hbelow =>
      cases h
      exact .inr (.inl ⟨rfl, BitVec.eq_of_toNat_eq hcode, BitVec.eq_of_toNat_eq hbelow⟩)
    next hequal =>
      cases h
      exact .inr (.inr (.inl ⟨rfl, BitVec.eq_of_toNat_eq hcode, BitVec.eq_of_toNat_eq hequal⟩))
    all_goals cases h
  next hcode =>
    cases h
    exact .inr (.inr (.inr ⟨rfl, BitVec.eq_of_toNat_eq hcode⟩))
  all_goals cases h

/-- Settles O56: with bit 7 clear the byte is a core selector, and the core's decoder has one branch per row. -/
theorem selectorMatchesTable : Obligations.SelectorMatchesTable :=
  fun _ _ hcore h => decodeCore_eq_ok ((decodeBytes_core hcore).symm.trans h)

/-- Settles O57, by evaluation: the eight words are fixed. -/
theorem selectorSanity : Obligations.SelectorSanity := ⟨rfl, rfl, rfl, rfl, rfl, rfl, rfl, rfl⟩

end Sys2Proof

namespace Sys2Proof.Machine

variable {i : Instr} {s t : State}

/-! ### The core operation that is enabled -/

theorem exec_decode_answers_iff : (∃ t, exec .decode s = .next t) ↔ s.phase = .start ∧ ∃ b, s.ibuf = some b := by
  constructor
  · rintro ⟨t, h⟩
    cases exec_next h with
    | decodeShort b hp hb | decodeOk b hp hb => exact ⟨hp, b, hb⟩
  · rintro ⟨hp, b, hb⟩
    exact (exec_of_selector (decode_selector_start_bound hp (hb ▸ rfl))).2

theorem exec_hashstep_answers_iff : (∃ t, exec .hashstep s = .next t) ↔ s.phase = .seeded ∧ s.i < s.n := by
  constructor
  · rintro ⟨t, h⟩
    cases exec_next h with
    | hashstep hp hlt => exact ⟨hp, hlt⟩
  · exact fun ⟨hp, hlt⟩ => ⟨_, exec_hashstep hp hlt⟩

theorem exec_finalize_answers_iff : (∃ t, exec .finalize s = .next t) ↔ s.phase = .seeded ∧ s.i = s.n := by
  constructor
  · rintro ⟨t, h⟩
    cases exec_next h with
    | finalize hp heq => exact ⟨hp, heq⟩
  · exact fun ⟨hp, heq⟩ => ⟨_, exec_finalize hp heq⟩

theorem exec_encode_answers_iff : (∃ t, exec .encode s = .next t) ↔ s.phase = .finalized := by
  constructor
  · rintro ⟨t, h⟩
    cases exec_next h with
    | encode hp => exact hp
  · exact fun hp => ⟨_, exec_encode hp⟩

/-- R70: a core operation that is enabled is the one the selector names, the converse of `exec_of_selector`. -/
theorem selector_of_exec (hi : isCoreOp i = true) (h : exec i s = .next t) : decodeBytes [s.selector] = .ok i := by
  cases exec_next h with
  | decodeShort b hp hb | decodeOk b hp hb => exact decode_selector_start_bound hp (hb ▸ rfl)
  | hashstep hp hlt => exact decode_selector_seeded_lt hp hlt
  | finalize hp heq => exact decode_selector_seeded_eq hp heq
  | encode hp => exact decode_selector_finalized hp
  | _ => cases hi

/-- Settles O37: a state has one selector, and the selector names at most one operation. -/
theorem operationMap : Obligations.OperationMap := by
  refine ⟨fun s => ⟨exec_decode_answers_iff, exec_hashstep_answers_iff, exec_finalize_answers_iff,
    exec_encode_answers_iff⟩, fun s t t' i j h h' hi hj => ?_⟩
  have hsame : Except.ok i = Except.ok (ε := DecodeError) j :=
    (selector_of_exec hi h).symm.trans (selector_of_exec hj h')
  exact Except.ok.inj hsame

/-! ### The step on the core's turn -/

/-- Log entry 5: the core moves on its own turn and when no turn is pending. -/
theorem not_host_turn_of_core_turn (h : s.turns = [] ∨ ∃ rest, s.turns = .core :: rest) :
    ∀ op rest, s.turns ≠ .host op :: rest := by
  rintro op rest hhost
  obtain h | ⟨_, h⟩ := h <;> cases hhost.symm.trans h

/-- R70: on the core's turn a step is the operation the selector names. -/
theorem step_of_selector (hturn : ∀ op rest, s.turns ≠ .host op :: rest) (h : decodeBytes [s.selector] = .ok i) :
    step s = exec i s.advance :=
  step_of_fetch (by rw [fetch_core hturn, h])

/-- R70: on the core's turn a step is idle when the selector names no operation. -/
theorem step_of_selector_error {e : DecodeError} (hturn : ∀ op rest, s.turns ≠ .host op :: rest)
    (h : decodeBytes [s.selector] = .error e) : step s = .next s.advance :=
  step_of_idle (by rw [fetch_core hturn, h])

/-- Settles O43: in each row of R70 the selector names the row's operation. -/
theorem stepPerformsSelectedOperation : Obligations.StepPerformsSelectedOperation := by
  intro s hcore
  have hturn := not_host_turn_of_core_turn hcore
  refine ⟨fun i => step_of_selector hturn, fun hp hb => ?_, fun hp hlt => ?_, fun hp heq => ?_, fun hp => ?_⟩
  · exact step_of_selector hturn (decode_selector_start_bound hp (Option.isSome_iff_ne_none.mpr hb))
  · exact step_of_selector hturn (decode_selector_seeded_lt hp hlt)
  · exact step_of_selector hturn (decode_selector_seeded_eq hp heq)
  · exact step_of_selector hturn (decode_selector_finalized hp)

/-! ### A table word placed (log entry 15) -/

/-- `selecting` sets what R70 selects a core operation by. -/
theorem decode_selector_selecting (s : State) (hi : isCoreOp i = true) :
    decodeBytes [(s.selecting i).selector] = .ok i := by
  cases i with
  | reset | load | rdstatus | rdout => cases hi
  | decode => exact decode_selector_start_bound rfl rfl
  | hashstep => exact decode_selector_seeded_lt rfl (show (0 : Count) < 1 by decide)
  | finalize => exact decode_selector_seeded_eq rfl rfl
  | encode => exact decode_selector_finalized rfl

/-- `selecting` puts one turn before those to come. -/
theorem advance_selecting (s : State) (i : Instr) :
    (s.selecting i).advance = { s.selecting i with turns := s.turns } := by
  cases i <;> rfl

theorem fetch_selecting (s : State) (i : Instr) : (s.selecting i).fetch = some i := by
  cases i with
  | reset | load | rdstatus | rdout => rfl
  | decode | hashstep | finalize | encode =>
    rw [fetch_core (not_host_turn_of_core_turn (.inr ⟨s.turns, rfl⟩)), decode_selector_selecting s rfl]

/-- A core operation placed answers: what the selector names is enabled. -/
theorem exec_selecting_core (s : State) (hi : isCoreOp i = true) :
    ∃ t, exec i (s.selecting i).advance = .next t :=
  (exec_of_selector (s := (s.selecting i).advance) (decode_selector_selecting s hi)).2

/-- The operation placed answers, LOAD for a buffer that can be presented. -/
theorem exec_selecting (s : State) (hw : i.wellFormed = true) : ∃ t, exec i (s.selecting i).advance = .next t := by
  cases i with
  | reset => exact ⟨_, exec_reset _⟩
  | load buf => exact ⟨_, exec_load rfl rfl hw⟩
  | rdstatus => exact ⟨_, exec_rdstatus _⟩
  | rdout k =>
    obtain ⟨rs, d, h⟩ := exec_read (op := .rdout k) rfl (s.selecting (.rdout k)).advance
    exact ⟨_, h⟩
  | decode | hashstep | finalize | encode => exact exec_selecting_core s rfl

theorem withFetchWord_of_decode (s : State) {nbits w : Nat} (h : decodeTableWord nbits w = some i) :
    s.withFetchWord nbits w = s.selecting i := by
  rw [State.withFetchWord, h]

/-- Settles O58: the placed operation is fetched, and its condition holds in the state it is placed in. -/
theorem placedWordRunsNext : Obligations.PlacedWordRunsNext := by
  intro s nbits w i hword
  rw [withFetchWord_of_decode s hword, step_of_fetch (fetch_selecting s i)]
  exact ⟨by rw [advance_selecting], exec_selecting s⟩

end Sys2Proof.Machine
end

section
/-!
Format IB (30_encoding.md R60) and jobs (R74): every buffer of at least 40 bytes is the buffer of one job, and
what DECODE and the whole run take from a buffer are its count and seed alone (R63 to R65).
-/

namespace Sys2Proof

/-- R74: the job a buffer of at least 40 bytes denotes. -/
def Job.ofBuffer (buf : List Byte) : Job where
  n := BitVec.ofNat 64 (le (buf.take 8))
  seed := Vector.ofFn fun j : Fin 32 => buf.getD (8 + j.val) 0
  tail := buf.drop 40

theorem decodeBuffer_eq_ofBuffer {buf : List Byte} (h : 40 ≤ buf.length) :
    decodeBuffer buf = some ((Job.ofBuffer buf).n, (Job.ofBuffer buf).seed) :=
  if_neg h.not_gt

theorem Job.length_encode (j : Job) : j.encode.length = 40 + j.tail.length := by
  simp only [Job.encode, List.length_append, toLe_length, Vector.length_toList]

/-- R60, R67: a job's buffer denotes the job. -/
theorem Job.ofBuffer_encode (j : Job) : Job.ofBuffer j.encode = j := by
  have hcount : j.encode.take 8 = toLe 8 j.n.toNat := by simp [Job.encode]
  have hseed : (Vector.ofFn fun k : Fin 32 => j.encode.getD (8 + k.val) 0) = j.seed := by
    apply Vector.ext
    intro k hk
    rw [Vector.getElem_ofFn, Job.encode, List.append_assoc, List.getD_append_right _ _ _ _ (by simp), toLe_length,
      Nat.add_sub_cancel_left, List.getD_append _ _ _ _ (by simpa using hk),
      List.getD_eq_getElem _ _ (by simpa using hk), Vector.getElem_toList]
  have htail : j.encode.drop 40 = j.tail := List.drop_left' (by simp)
  rw [Job.ofBuffer, hcount, le_toLe_count, BitVec.ofNat_toNat, BitVec.setWidth_eq, hseed, htail]

/-- R60, R67: a buffer of at least 40 bytes is its job's. -/
theorem Job.encode_ofBuffer {buf : List Byte} (h : 40 ≤ buf.length) : (Job.ofBuffer buf).encode = buf := by
  have hfield : (buf.take 8).length = 8 := List.length_take_of_le (by omega)
  have hcount : toLe 8 (Job.ofBuffer buf).n.toNat = buf.take 8 := by
    rw [Job.ofBuffer, BitVec.toNat_ofNat, Nat.mod_eq_of_lt (le_lt_count hfield)]
    simpa only [hfield] using toLe_le (buf.take 8)
  have hseed : (Job.ofBuffer buf).seed.toList = (buf.drop 8).take 32 := by
    apply List.ext_getElem
    · simp only [Vector.length_toList, List.length_take, List.length_drop]
      omega
    · intro k hk hk'
      rw [Vector.length_toList] at hk
      have hlt : 8 + k < buf.length := by omega
      simp [Job.ofBuffer, hlt]
  calc (Job.ofBuffer buf).encode
      = buf.take 8 ++ (buf.drop 8).take 32 ++ buf.drop 40 := by rw [Job.encode, hcount, hseed]; rfl
    _ = buf := by
        rw [List.append_assoc, ← List.drop_drop (i := 32) (j := 8), List.take_append_drop, List.take_append_drop]

/-- Settles O18: `Job.ofBuffer` and `Job.encode` are inverse to each other, and the decoder reads
`Job.ofBuffer`'s fields. -/
theorem jobRoundTrip : Obligations.JobRoundTrip := by
  refine ⟨fun j => ?_, fun buf h => ⟨Job.ofBuffer buf, Job.encode_ofBuffer h, ?_⟩⟩
  · rw [decodeBuffer_eq_ofBuffer (by rw [j.length_encode]; omega), j.ofBuffer_encode]
  · rintro j rfl
    exact j.ofBuffer_encode.symm

end Sys2Proof

namespace Sys2Proof.Machine

/-- Settles O15: DECODE leaves the buffer's seed in STATE. -/
theorem seedIsCopiedInOrder : Obligations.SeedIsCopiedInOrder := by
  intro s t b hb hl hnext j hj
  rw [exec_decode_next_ok hb hl hnext]
  exact b.seed_getElem j hj

/-! ### The tail (R63) -/

section Tail

variable {b b' : InputBuffer}

theorem InputBuffer.count_congr (h : ∀ j, j < 40 → b.byte j = b'.byte j) : b.count = b'.count :=
  congrArg (fun f => countOfBytes (Vector.ofFn f)) (funext fun j => h j.val (by omega))

theorem InputBuffer.seed_congr (h : ∀ j, j < 40 → b.byte j = b'.byte j) : b.seed = b'.seed :=
  congrArg Vector.ofFn (funext fun j => h (8 + j.val) (by omega))

/-- R70, R71: of the buffer the selector takes only that one is bound. -/
theorem selector_rebind {s : State} (hb : s.ibuf = some b) (b' : InputBuffer) :
    State.selector { s with ibuf := some b' } = s.selector := by
  simp only [State.selector, State.condition, hb, Option.isSome_some]

variable {i : Instr} {s t : State}
  (hl : 40 ≤ b.len) (hl' : 40 ≤ b'.len) (hagree : ∀ j, j < 40 → b.byte j = b'.byte j)
include hl hl' hagree

/-- R63: of a long enough buffer a core operation takes bytes 0 to 39 alone. -/
theorem exec_core_rebind (hi : isCoreOp i = true) (hb : s.ibuf = some b) (h : exec i s = .next t) :
    exec i { s with ibuf := some b' } = .next { t with ibuf := some b' } := by
  cases exec_next h with
  | decodeShort b₀ hp hb₀ hshort =>
    cases hb.symm.trans hb₀
    exact absurd hl hshort.not_ge
  | decodeOk b₀ hp hb₀ =>
    cases hb.symm.trans hb₀
    rw [InputBuffer.count_congr hagree, InputBuffer.seed_congr hagree]
    exact exec_decode_ok (by exact hp) rfl hl'
  | hashstep hp hlt => exact exec_hashstep (by exact hp) (by exact hlt)
  | finalize hp heq => exact exec_finalize (by exact hp) (by exact heq)
  | encode hp => exact exec_encode (by exact hp)
  | _ => cases hi

/-- R63: with no turn pending a step keeps the buffer, and does the same with another that agrees on bytes 0 to 39. -/
theorem step_rebind (hts : s.turns = []) (hb : s.ibuf = some b) :
    ∃ t, step s = .next t ∧ t.turns = [] ∧ t.ibuf = some b ∧
      step { s with ibuf := some b' } = .next { t with ibuf := some b' } := by
  have hts' : State.turns { s with ibuf := some b' } = [] := hts
  have hturn := not_host_turn_of_core_turn (.inl hts)
  have hturn' := not_host_turn_of_core_turn (.inl hts')
  have hsame := congrArg (fun w => decodeBytes [w]) (selector_rebind hb b')
  cases hsel : decodeBytes [s.selector] with
  | error e =>
    refine ⟨s, ?_, hts, hb, ?_⟩
    · rw [step_of_selector_error hturn hsel, advance_of_no_turns hts]
    · rw [step_of_selector_error hturn' (hsame.trans hsel), advance_of_no_turns hts']
  | ok i =>
    obtain ⟨hi, t, hexec⟩ := exec_of_selector hsel
    obtain ⟨hibuf, -, -, hturns, -⟩ := coreOperationFrames i s t hexec hi
    refine ⟨t, ?_, hturns.trans hts, hibuf.trans hb, ?_⟩
    · rw [step_of_selector hturn hsel, advance_of_no_turns hts, hexec]
    · rw [step_of_selector hturn' (hsame.trans hsel), advance_of_no_turns hts']
      exact exec_core_rebind hl hl' hagree hi hb hexec

end Tail

/-- Settles O54, by induction on the number of steps: each step keeps the buffer, and answers alike with the other. -/
theorem tailIsIgnored : Obligations.TailIsIgnored := by
  intro s t b b' k hts hb hl hl' hagree hrun
  induction k generalizing s with
  | zero =>
    cases hrun
    rfl
  | succ k ih =>
    obtain ⟨u, hstep, hts', hb', hstep'⟩ := step_rebind hl hl' hagree hts hb
    rw [runSteps_succ, hstep] at hrun
    rw [runSteps_succ, hstep']
    exact ih u hts' hb' hrun

end Sys2Proof.Machine
end

section
/-!
The input decoder (40_decode.md R80 to R85): what DECODE takes from the bound buffer, the decoder as a function of the
presented bytes, and what that function forgets of them.
-/

namespace Sys2Proof

/-- R60: the first 40 bytes of a job's buffer are its count and its seed. -/
theorem Job.take_encode (j : Job) : j.encode.take 40 = toLe 8 j.n.toNat ++ j.seed.toList :=
  List.take_left' (by simp)

/-- R85: the first 40 bytes of a job's buffer hold its count and its seed, and nothing more. -/
theorem Job.take_encode_eq_iff (j k : Job) :
    j.encode.take 40 = k.encode.take 40 ↔ j.n = k.n ∧ j.seed = k.seed := by
  rw [j.take_encode, k.take_encode]
  constructor
  · intro h
    obtain ⟨hcount, hseed⟩ := List.append_inj h (by simp)
    have hle := congrArg le hcount
    rw [le_toLe_count, le_toLe_count] at hle
    exact ⟨BitVec.eq_of_toNat_eq hle, Vector.toList_inj.mp hseed⟩
  · rintro ⟨hn, hseed⟩
    rw [hn, hseed]

/-- Settles O17: each buffer is its job's, and the decoder gives the job's count and seed. -/
theorem decodeInjectiveOnFirst40 : Obligations.DecodeInjectiveOnFirst40 := by
  intro a b ha hb
  have hfields := Job.take_encode_eq_iff (Job.ofBuffer a) (Job.ofBuffer b)
  rw [Job.encode_ofBuffer ha, Job.encode_ofBuffer hb] at hfields
  rw [decodeBuffer_eq_ofBuffer ha, decodeBuffer_eq_ofBuffer hb, hfields, Option.some_inj, Prod.mk_inj]

end Sys2Proof

namespace Sys2Proof.Machine

/-- R65: the seed is the bytes at offsets 8 to 39, in order. -/
theorem InputBuffer.seed_toList (b : InputBuffer) : b.seed.toList = (List.range' 8 32).map b.byte := by
  apply List.ext_getElem (by simp)
  intro j hj _
  rw [Vector.length_toList] at hj
  rw [Vector.getElem_toList, b.seed_getElem j hj, List.getElem_map, List.getElem_range', Nat.one_mul]

/-- Settles O13: one equation of DECODE on each side of LEN 40; R70's table gives its condition, and that no other core
operation is enabled there. -/
theorem decodeAsSpecified : Obligations.DecodeAsSpecified := by
  refine ⟨fun s b => exec_decode_short, fun s b hp hb hl => ?_, fun s t hnext => ⟨fun i u hi hu => ?_, ?_⟩⟩
  · exact ⟨b.count, b.seed, exec_decode_ok hp hb hl, b.count_toNat, b.seed_toList⟩
  · obtain ⟨_, hunique⟩ := operationMap
    exact hunique s u t i .decode hu hnext hi rfl
  · exact exec_decode_answers_iff.mp ⟨t, hnext⟩

/-! ### The decoder as a function of the presented bytes (R83) -/

variable {buf : List Byte}

/-- R64: the count of a bound buffer is `le` of the first eight bytes presented. -/
theorem InputBuffer.count_ofBytes (h : 8 ≤ buf.length) :
    (InputBuffer.ofBytes buf).count = BitVec.ofNat 64 (le (buf.take 8)) := by
  have hfield : (Vector.ofFn fun j : Fin 8 => (InputBuffer.ofBytes buf).byte j.val).toList = buf.take 8 := by
    apply List.ext_getElem
    · rw [Vector.length_toList, List.length_take_of_le h]
    · intro j hj hj'
      rw [Vector.getElem_toList, Vector.getElem_ofFn, InputBuffer.byte_ofBytes, List.getElem_take,
        List.getD_eq_getElem]
  rw [InputBuffer.count, countOfBytes, hfield]

/-- R65: the seed of a bound buffer is the presented bytes at offsets 8 to 39. -/
theorem InputBuffer.seed_ofBytes (buf : List Byte) :
    (InputBuffer.ofBytes buf).seed = Vector.ofFn fun j : Fin 32 => buf.getD (8 + j.val) 0 :=
  congrArg Vector.ofFn (funext fun j => InputBuffer.byte_ofBytes buf (8 + j.val))

theorem decodeBuffer_short (h : buf.length < 40) : decodeBuffer buf = none := if_pos h

/-- R83: the decoder function gives the count and the seed of the buffer that LOAD binds. -/
theorem decodeBuffer_eq_fields (h : 40 ≤ buf.length) :
    decodeBuffer buf = some ((InputBuffer.ofBytes buf).count, (InputBuffer.ofBytes buf).seed) := by
  rw [decodeBuffer_eq_ofBuffer h, InputBuffer.count_ofBytes (by omega), InputBuffer.seed_ofBytes, Job.ofBuffer]

/-- R74: a run trace goes on from what its first operation answers. -/
theorem runTrace_cons_next {i : Instr} {s t : State} (h : exec i s = .next t) (is : List Instr) :
    runTrace (i :: is) s = runTrace is t := by
  rw [runTrace, h]

/-- Settles O16: LOAD binds the presented bytes, and DECODE and the decoder function split alike on their length. -/
theorem decodeIsTheDecoderFunction : Obligations.DecodeIsTheDecoderFunction := by
  intro s buf hp hb hw
  rw [runTrace_cons_next (exec_load hp hb hw)]
  by_cases hl : buf.length < 40
  · rw [decodeBuffer_short hl]
    exact ⟨_, runTrace_cons_next (exec_decode_short (by exact hp) rfl hl) [], ⟨rfl, rfl, rfl, rfl⟩, rfl, rfl⟩
  · rw [decodeBuffer_eq_fields (not_lt.mp hl)]
    exact ⟨_, runTrace_cons_next (exec_decode_ok (by exact hp) rfl (not_lt.mp hl)) [], ⟨rfl, rfl, rfl, rfl⟩, rfl, rfl⟩

end Sys2Proof.Machine
end

section
/-!
Hash256's word functions and constants (41_hash256.md R92 to R95): the rotation and the shift as arithmetic, the six
functions bit by bit, and the constants as root words of the primes.
-/

namespace Sys2Proof.Machine

/-! ### The word operations (R92) -/

theorem shr_toNat (k : Nat) (x : Word) : (shr k x).toNat = x.toNat / 2 ^ k := by
  rw [shr, BitVec.toNat_ushiftRight, Nat.shiftRight_eq_div_pow]

/-- R92: a rotated word is the XOR of its two shifts, which have no bit in common: bits 0 to 31 - k come from the right
shift, the others from the left shift. -/
theorem rotr_eq_shr_xor_shiftLeft {k : Nat} (hk : k < 32) (x : Word) : rotr k x = shr k x ^^^ x <<< (32 - k) := by
  apply BitVec.eq_of_getLsbD_eq
  intro j hj
  rw [rotr_getLsbD k j x hj, BitVec.getLsbD_xor, shr_getLsbD, BitVec.getLsbD_shiftLeft]
  by_cases hlow : j + k < 32
  · have hleft : j < 32 - k := by omega
    simp [Nat.mod_eq_of_lt hlow, hleft]
  · have hbit : (j + k) % 32 = j - (32 - k) := by omega
    have hleft : ¬ j < 32 - k := by omega
    simp [hbit, hleft, hj, BitVec.getLsbD_of_ge x (j + k) (by omega)]

/-- R92: shifting left by `k` multiplies by `2 ^ k` modulo `2 ^ 32`. -/
theorem shiftLeft_eq_ofNat_mul (x : Word) (k : Nat) : x <<< k = BitVec.ofNat 32 ((x.toNat * 2 ^ k) % 2 ^ 32) := by
  apply BitVec.eq_of_toNat_eq
  rw [BitVec.toNat_shiftLeft, BitVec.toNat_ofNat, Nat.mod_mod, Nat.shiftLeft_eq]

/-- Settles O27: the rotation is the XOR of the two shifts, each of them given as arithmetic. -/
theorem wordOperations : Obligations.WordOperations := by
  refine ⟨BitVec.toNat_add, fun x => ?_, fun k x _ _ => shr_toNat k x, fun k x _ hk => ?_, ?_⟩
  · exact BitVec.xor_allOnes.symm
  · rw [rotr_eq_shr_xor_shiftLeft hk, shiftLeft_eq_ofNat_mul]
  · decide

/-! ### The six functions, bit by bit (R93) -/

section Bits
variable (x y z : Word) {j : Nat}

theorem maj_getLsbD :
    (maj x y z).getLsbD j =
      ((x.getLsbD j && y.getLsbD j) ^^ (x.getLsbD j && z.getLsbD j) ^^ (y.getLsbD j && z.getLsbD j)) := by
  simp only [maj, BitVec.getLsbD_xor, BitVec.getLsbD_and]

variable (hj : j < 32)
include hj

theorem ch_getLsbD :
    (ch x y z).getLsbD j = ((x.getLsbD j && y.getLsbD j) ^^ (!x.getLsbD j && z.getLsbD j)) := by
  simp [ch, hj]

theorem bsig0_getLsbD :
    (bsig0 x).getLsbD j =
      (x.getLsbD ((j + 2) % 32) ^^ x.getLsbD ((j + 13) % 32) ^^ x.getLsbD ((j + 22) % 32)) := by
  simp only [bsig0, BitVec.getLsbD_xor, rotr_getLsbD _ _ _ hj]

theorem bsig1_getLsbD :
    (bsig1 x).getLsbD j =
      (x.getLsbD ((j + 6) % 32) ^^ x.getLsbD ((j + 11) % 32) ^^ x.getLsbD ((j + 25) % 32)) := by
  simp only [bsig1, BitVec.getLsbD_xor, rotr_getLsbD _ _ _ hj]

theorem ssig0_getLsbD :
    (ssig0 x).getLsbD j = (x.getLsbD ((j + 7) % 32) ^^ x.getLsbD ((j + 18) % 32) ^^ x.getLsbD (j + 3)) := by
  simp only [ssig0, BitVec.getLsbD_xor, rotr_getLsbD _ _ _ hj, shr_getLsbD]

theorem ssig1_getLsbD :
    (ssig1 x).getLsbD j = (x.getLsbD ((j + 17) % 32) ^^ x.getLsbD ((j + 19) % 32) ^^ x.getLsbD (j + 10)) := by
  simp only [ssig1, BitVec.getLsbD_xor, rotr_getLsbD _ _ _ hj, shr_getLsbD]

end Bits

/-! ### The constants (R94, R95) -/

/-- R94, R95: the first 32 bits of the fractional part of the `e`-th root of `p`: the low 32 bits of that root scaled by
`2 ^ 32` and rounded down. -/
def rootWord (e p : Nat) : Word := BitVec.ofNat 32 (Nat.nthRoot e (p * 2 ^ (32 * e)))

/-- The scaled root is a whole number `q` of times `2 ^ 32` and the root word. -/
theorem rootWord_bounds {e : Nat} (he : e ≠ 0) (p : Nat) :
    ∃ q, (q * 2 ^ 32 + (rootWord e p).toNat) ^ e ≤ p * 2 ^ (32 * e) ∧
      p * 2 ^ (32 * e) < (q * 2 ^ 32 + (rootWord e p).toNat + 1) ^ e := by
  refine ⟨Nat.nthRoot e (p * 2 ^ (32 * e)) / 2 ^ 32, ?_⟩
  rw [rootWord, BitVec.toNat_ofNat, Nat.div_add_mod']
  exact ⟨Nat.pow_nthRoot_le_iff.mpr (.inl he), Nat.lt_pow_nthRoot_add_one he _⟩

/-- The numbers below `n` with a property, by rising value, are the first ones with it. -/
theorem filter_range_eq_map_nth (p : Nat → Prop) [DecidablePred p] (n : Nat) :
    (List.range n).filter p = (List.range (Nat.count p n)).map (Nat.nth p) := by
  induction n with
  | zero => simp
  | succ n ih =>
    rw [List.range_succ, List.filter_append, ih, Nat.count_succ]
    by_cases hn : p n
    · simp [hn, List.range_succ, Nat.nth_count hn]
    · simp [hn]

/-- Entry `t` of a table of root words of the primes below a bound is the root word of the (t+1)-th prime. -/
theorem exists_rootWord_of_eq_map {e n : Nat} (he : e ≠ 0) {ws : List Word}
    (hws : ws = ((List.range n).filter Nat.Prime).map (rootWord e)) {t : Nat} (ht : t < ws.length) :
    ∃ (w : Word) (q : Nat), ws[t]? = some w ∧
      (q * 2 ^ 32 + w.toNat) ^ e ≤ Nat.nth Nat.Prime t * 2 ^ (32 * e) ∧
      Nat.nth Nat.Prime t * 2 ^ (32 * e) < (q * 2 ^ 32 + w.toNat + 1) ^ e := by
  rw [filter_range_eq_map_nth, List.map_map] at hws
  have hcount : t < Nat.count Nat.Prime n := by rwa [hws, List.length_map, List.length_range] at ht
  have hentry : ws[t]? = some (rootWord e (Nat.nth Nat.Prime t)) := by
    rw [hws, List.getElem?_map, List.getElem?_range hcount, Option.map_some, Function.comp_apply]
  obtain ⟨q, hq⟩ := rootWord_bounds he (Nat.nth Nat.Prime t)
  exact ⟨_, q, hentry, hq⟩

/-- A number below `k * k` is prime if its only divisor from 2 to `k - 1` is, if any, itself: its least factor is below
`k` if it is composite. -/
theorem prime_iff_trial_division {k p : Nat} (hp : p < k * k) :
    Nat.Prime p ↔ 2 ≤ p ∧ ∀ m < k, 2 ≤ m → m ∣ p → m = p := by
  constructor
  · intro hprime
    exact ⟨hprime.two_le, fun m _ hm => (Nat.dvd_prime_two_le hprime hm).mp⟩
  · rintro ⟨htwo, htrial⟩
    have hfac : p.minFac.Prime := Nat.minFac_prime (by omega)
    by_contra hcomposite
    have hlt : p.minFac < k := by nlinarith [Nat.minFac_sq_le_self (by omega) hcomposite]
    exact hcomposite (htrial _ hlt hfac.two_le p.minFac_dvd ▸ hfac)

/-- The primes below `n` by trial division, which is cheaper to evaluate than the definition of a prime. -/
theorem filter_prime_eq_trial_division {k n : Nat} (hn : n ≤ k * k) :
    (List.range n).filter Nat.Prime =
      (List.range n).filter fun p => 2 ≤ p ∧ ∀ m < k, 2 ≤ m → m ∣ p → m = p :=
  List.filter_congr fun _ hp =>
    decide_eq_decide.mpr (prime_iff_trial_division ((List.mem_range.mp hp).trans_le hn))

/-- R94: the round constants are the cube-root words of the primes up to 311. -/
theorem roundConstants_eq_rootWords :
    roundConstants = ((List.range 312).filter Nat.Prime).map (rootWord 3) := by
  rw [filter_prime_eq_trial_division (k := 18) (by decide)]
  decide +kernel

/-- R95: the initial hash value is the square-root words of the primes up to 19. -/
theorem initialHash_eq_rootWords :
    [initialHash.a, initialHash.b, initialHash.c, initialHash.d, initialHash.e, initialHash.f, initialHash.g,
      initialHash.h] = ((List.range 20).filter Nat.Prime).map (rootWord 2) := by decide +kernel

/-- Settles O59: the bits of the rotations and shifts, and each constant as the root word of its prime. -/
theorem hashFunctionsAndConstants : Obligations.HashFunctionsAndConstants := by
  refine ⟨fun x y z j hj => ?_, roundConstants_length, fun t ht => ?_, fun j hj => ?_⟩
  · exact ⟨ch_getLsbD x y z hj, maj_getLsbD x y z, bsig0_getLsbD x hj, bsig1_getLsbD x hj, ssig0_getLsbD x hj,
      ssig1_getLsbD x hj⟩
  · exact exists_rootWord_of_eq_map (by decide) roundConstants_eq_rootWords ht
  · exact exists_rootWord_of_eq_map (by decide) initialHash_eq_rootWords hj

end Sys2Proof.Machine
end

section
/-!
Hash256's algorithm (41_hash256.md R96 to R100): the padded block, the message schedule, the 64 rounds, and the bytes of a
hash.
-/

namespace Sys2Proof.Machine

/-! ### The padded block (R96) -/

/-- R96: what padding appends to the message, the same for every message: a 1 bit, zero fill, and the length 256. -/
def hashPadding : List Byte := 0x80 :: (List.replicate 23 0x00 ++ toBe 8 256)

theorem paddedBlock_eq_append (s : Digest) : paddedBlock s = s.toList ++ hashPadding := by
  simp only [paddedBlock, List.append_assoc]
  rfl

/-- The block from offset 32 on is the padding. -/
theorem paddedBlock_drop (s : Digest) (k : Nat) : (paddedBlock s).drop (32 + k) = hashPadding.drop k := by
  rw [paddedBlock_eq_append, ← List.drop_drop, List.drop_left' (by simp)]

theorem paddedBlock_getElem?_padding (s : Digest) (k : Nat) : (paddedBlock s)[32 + k]? = hashPadding[k]? := by
  rw [paddedBlock_eq_append, List.getElem?_append_right (by simp)]
  simp

/-- Settles O28: the message, then the padding, read at its offsets. -/
theorem paddedBlockFormat : Obligations.PaddedBlockFormat := by
  refine fun s => ⟨paddedBlock_length s, ?_, paddedBlock_getElem?_padding s 0, fun j hlo hhi => ?_, paddedBlock_drop s 24⟩
  · rw [paddedBlock_eq_append, List.take_left' (by simp)]
  · have hfill : ∀ k < 23, hashPadding[k + 1]? = some 0x00 := by decide
    obtain ⟨k, rfl⟩ := Nat.exists_eq_add_of_le hlo
    rw [show 33 + k = 32 + (k + 1) by omega, paddedBlock_getElem?_padding, hfill k (by omega)]

/-! ### The message schedule (R97, R98) -/

/-- R97: word t is the big-endian reading of bytes 4t to 4t + 3. -/
theorem beWords_getElem? {bs : List Byte} {t : Nat} (h : 4 * t + 4 ≤ bs.length) :
    (beWords bs)[t]? = some (BitVec.ofNat 32 (be ((bs.drop (4 * t)).take 4))) := by
  induction t generalizing bs with
  | zero =>
    match bs, h with
    | b0 :: b1 :: b2 :: b3 :: bs, _ => rfl
  | succ t ih =>
    match bs, h with
    | b0 :: b1 :: b2 :: b3 :: bs, h =>
      simp only [List.length_cons] at h
      rw [beWords, List.getElem?_cons_succ, ih (by omega)]
      rfl

/-- Without its `m` newest words, an extension by `m + k` words is the extension by `k`. -/
theorem extendSchedule_add_drop (m k : Nat) (newest : List Word) :
    (extendSchedule (m + k) newest).drop m = extendSchedule k newest := by
  induction k generalizing newest with
  | zero => exact extendSchedule_drop m newest
  | succ k ih => exact ih _

/-- The newest word comes from the words before it. -/
theorem extendSchedule_succ (k : Nat) (newest : List Word) :
    extendSchedule (k + 1) newest = nextScheduleWord (extendSchedule k newest) :: extendSchedule k newest := by
  induction k generalizing newest with
  | zero => rfl
  | succ k ih => exact ih _

/-- R98: the first 16 + k schedule words are the block's words, extended by `k`. -/
theorem schedule_take (s : Digest) {k : Nat} (hk : k ≤ 48) :
    (schedule s).take (16 + k) = (extendSchedule k (beWords (paddedBlock s)).reverse).reverse := by
  obtain ⟨m, hm⟩ := Nat.exists_eq_add_of_le' hk
  have hlen : (beWords (paddedBlock s)).length = 16 := beWords_length 16 _ (paddedBlock_length s)
  rw [schedule, List.take_reverse, extendSchedule_length, List.length_reverse, hlen, hm,
    show 16 + (m + k) - (16 + k) = m by omega, extendSchedule_add_drop]

/-- R97: schedule word t below 16 is the big-endian reading of block bytes 4t to 4t + 3. -/
theorem schedule_getElem?_block (s : Digest) {t : Nat} (ht : t < 16) :
    (schedule s)[t]? = some (BitVec.ofNat 32 (be (((paddedBlock s).drop (4 * t)).take 4))) := by
  have hblock : (schedule s).take 16 = beWords (paddedBlock s) := by
    rw [schedule_take s (k := 0) (by omega), extendSchedule, List.reverse_reverse]
  rw [← List.getElem?_take_of_lt ht, hblock, beWords_getElem? (by rw [paddedBlock_length]; omega)]

/-- R97: schedule words 8 to 15 are the words of the padding, the same for every message. -/
theorem schedule_getElem?_padding (s : Digest) {k : Nat} (hk : k < 8) :
    (schedule s)[8 + k]? = some (BitVec.ofNat 32 (be ((hashPadding.drop (4 * k)).take 4))) := by
  rw [schedule_getElem?_block s (by omega), Nat.mul_add, paddedBlock_drop]

/-- Settles O29: the block's words are the digest's for t below 8 and the padding's from 8 on. -/
theorem scheduleParsesBlock : Obligations.ScheduleParsesBlock := by
  refine fun s => ⟨schedule_length s, fun t => schedule_getElem?_block s, fun t ht => ?_,
    schedule_getElem?_padding s (k := 0) (by decide), fun t hlo hhi => ?_, schedule_getElem?_padding s (k := 7) (by decide)⟩
  · rw [schedule_getElem?_block s (by omega), paddedBlock_eq_append,
      List.drop_append_of_le_length (by rw [Vector.length_toList]; omega),
      List.take_append_of_le_length (by rw [List.length_drop, Vector.length_toList]; omega)]
  · have hzero : ∀ k < 6, BitVec.ofNat 32 (be ((hashPadding.drop (4 * (k + 1))).take 4)) = 0 := by decide
    obtain ⟨k, rfl⟩ := Nat.exists_eq_add_of_le hlo
    rw [show 9 + k = 8 + (k + 1) by omega, schedule_getElem?_padding s (by omega), hzero k (by omega)]

/-- R98: a later schedule word is computed from the words before it, newest first. -/
theorem schedule_getElem?_next (s : Digest) {t : Nat} (hlo : 16 ≤ t) (hhi : t < 64) :
    (schedule s)[t]? = some (nextScheduleWord ((schedule s).take t).reverse) := by
  obtain ⟨k, rfl⟩ := Nat.exists_eq_add_of_le hlo
  have hbefore := schedule_take s (k := k) (by omega)
  have hnext : (schedule s).take (16 + k + 1) =
      (schedule s).take (16 + k) ++ [nextScheduleWord ((schedule s).take (16 + k)).reverse] := by
    rw [Nat.add_assoc, schedule_take s (by omega), extendSchedule_succ, List.reverse_cons, hbefore, List.reverse_reverse]
  have hlen : ((schedule s).take (16 + k)).length = 16 + k := List.length_take_of_le (by rw [schedule_length]; omega)
  rw [← List.getElem?_take_of_lt (Nat.lt_succ_self (16 + k)), hnext, List.getElem?_append_right hlen.le, hlen,
    Nat.sub_self, List.getElem?_cons_zero]

/-- Counted from the newest, word `i` before word `t` is word `t - (i + 1)`. -/
theorem getElem?_eq_some_getD_reverse_take {ws : List Word} {t i : Nat} (hi : i < t) (ht : t ≤ ws.length) :
    ws[t - (i + 1)]? = some ((ws.take t).reverse.getD i 0) := by
  have hlen : (ws.take t).length = t := List.length_take_of_le ht
  rw [List.getD_eq_getElem _ _ (by rw [List.length_reverse, hlen]; exact hi), List.getElem_reverse, List.getElem_take,
    List.getElem?_eq_getElem (by omega), Option.some_inj]
  congr 1
  omega

/-- Settles O30: the next word is the rule's sum of the words at 1, 6, 14 and 15 places before the newest. -/
theorem scheduleRecurrence : Obligations.ScheduleRecurrence := by
  intro s t hlo hhi
  have hword {i : Nat} (hi : i < 16) :=
    getElem?_eq_some_getD_reverse_take (ws := schedule s) (t := t) (i := i) (by omega) (by rw [schedule_length]; omega)
  exact ⟨_, _, _, _, hword (i := 1) (by decide), hword (i := 6) (by decide), hword (i := 14) (by decide),
    hword (i := 15) (by decide), schedule_getElem?_next s hlo hhi⟩

/-! ### The rounds (R99) -/

/-- R99: the working variables after the first `t` rounds. -/
def workVars (s : Digest) (t : Nat) : WorkVars :=
  ((roundConstants.zip (schedule s)).take t).foldl compressRound initialHash

theorem workVars_zero (s : Digest) : workVars s 0 = initialHash := rfl

/-- R99: round `t` uses K[t] and W[t]. -/
theorem workVars_succ (s : Digest) {t : Nat} {k w : Word} (hk : roundConstants[t]? = some k)
    (hw : (schedule s)[t]? = some w) : workVars s (t + 1) = compressRound (workVars s t) (k, w) :=
  foldl_take_succ (List.getElem?_zip_eq_some.mpr ⟨hk, hw⟩) initialHash

theorem workVars_all (s : Digest) : workVars s 64 = compress s := by
  rw [workVars, compress, List.take_of_length_le (by simp)]

/-- R100: the final hash words are IV plus the working variables after round 63. -/
theorem finalHash_eq_workVars (s : Digest) :
    finalHash s = #v[initialHash.a + (workVars s 64).a, initialHash.b + (workVars s 64).b,
      initialHash.c + (workVars s 64).c, initialHash.d + (workVars s 64).d, initialHash.e + (workVars s 64).e,
      initialHash.f + (workVars s 64).f, initialHash.g + (workVars s 64).g, initialHash.h + (workVars s 64).h] := by
  rw [workVars_all, finalHash]

/-! ### The bytes of a hash (R100, R47) -/

theorem digestOfWords_getElem (ws : Vector Word 8) {j r : Nat} (hj : j < 8) (hr : r < 4) :
    (digestOfWords ws)[4 * j + r] = byteOfWord ws[j] r := by
  have hword : (4 * j + r) / 4 = j := by omega
  have hbyte : (4 * j + r) % 4 = r := by omega
  simp only [digestOfWords, Vector.getElem_ofFn, hword, hbyte]

/-- R100: the four bytes of a word, read big-endian, are the word. -/
theorem be_byteOfWord (w : Word) : be [byteOfWord w 0, byteOfWord w 1, byteOfWord w 2, byteOfWord w 3] = w.toNat := by
  have hw := w.isLt
  simp only [be_four, byteOfWord, BitVec.extractLsb'_toNat, Nat.shiftRight_eq_div_pow]
  omega

/-- R129: the encoder's words of a digest that eight words spell are these words. -/
theorem outWords_digestOfWords (ws : Vector Word 8) : outWords (digestOfWords ws) = ws := by
  apply Vector.ext
  intro j hj
  have hbyte {r : Nat} (hr : r < 4) := digestOfWords_getElem ws hj hr
  have hbytes : outWord (digestOfWords ws) ⟨j, hj⟩ =
      BitVec.ofNat 32 (be [byteOfWord ws[j] 0, byteOfWord ws[j] 1, byteOfWord ws[j] 2, byteOfWord ws[j] 3]) := by
    rw [← hbyte (r := 0) (by decide), ← hbyte (r := 1) (by decide), ← hbyte (r := 2) (by decide),
      ← hbyte (r := 3) (by decide)]
    rfl
  rw [outWords, Vector.getElem_ofFn, hbytes, be_byteOfWord, BitVec.ofNat_toNat, BitVec.setWidth_eq]

/-- Settles O31: the working variables round by round, and the hash's bytes as those of its words. -/
theorem hashOutputIsFinalHash : Obligations.HashOutputIsFinalHash := by
  refine ⟨fun s => ⟨workVars s, workVars_zero s, fun t ht => ?_, finalHash_eq_workVars s⟩,
    fun s j r => digestOfWords_getElem (finalHash s), fun s => outWords_digestOfWords (finalHash s)⟩
  have hk := List.getElem?_eq_getElem (l := roundConstants) (i := t) (by rw [roundConstants_length]; exact ht)
  have hw := List.getElem?_eq_getElem (l := schedule s) (i := t) (by rw [schedule_length]; exact ht)
  rw [workVars_succ s hk hw]
  exact ⟨_, _, _, _, hk, hw, rfl, rfl, compressRound_h _ _, compressRound_g _ _, compressRound_f _ _, compressRound_e _ _,
    compressRound_d _ _, compressRound_c _ _, compressRound_b _ _, compressRound_a _ _⟩

end Sys2Proof.Machine
end

section
/-!
The hash chain and the loop (42_chain.md R110 to R118): HASHSTEP and FINALIZE as R70 enables them, the chain function, how
many HASHSTEPs lead to FINALIZE, and the run from a launch state through the loop to DONE.
-/

namespace Sys2Proof.Machine

variable {i : Instr} {s t : State} {b b' : InputBuffer} {k : Nat}

/-! ### The two operations of the loop (R110, R111, R118) -/

/-- Settles O22: below N the increment does not wrap; R70's table gives the condition, and that no other core operation is
enabled there. -/
theorem hashstepAsSpecified : Obligations.HashstepAsSpecified := by
  obtain ⟨_, hunique⟩ := operationMap
  refine ⟨fun s hp hlt => ⟨_, exec_hashstep hp hlt, rfl, succ_toNat_of_lt hlt⟩,
    fun s t hnext => ⟨fun i u hi hu => ?_, ?_⟩⟩
  · exact hunique s u t i .hashstep hu hnext hi rfl
  · exact exec_hashstep_answers_iff.mp ⟨t, hnext⟩

/-- Settles O23: as for HASHSTEP, R70's table gives the condition and that no other core operation is enabled there. -/
theorem finalizeAsSpecified : Obligations.FinalizeAsSpecified := by
  obtain ⟨_, hunique⟩ := operationMap
  refine ⟨fun s => exec_finalize, fun s t hnext => ⟨fun i u hi hu => ?_, ?_⟩⟩
  · exact hunique s u t i .finalize hu hnext hi rfl
  · exact exec_finalize_answers_iff.mp ⟨t, hnext⟩

/-- Settles O24: I was below N, so its increment does not wrap. -/
theorem hashstepCountsDown : Obligations.HashstepCountsDown := by
  intro s t hnext
  cases exec_next hnext with
  | hashstep hp hlt =>
    have hsucc := succ_toNat_of_lt hlt
    have hbelow := BitVec.lt_def.mp hlt
    refine ⟨?_, rfl, ?_⟩ <;> dsimp only <;> omega

/-! ### The chain function (R113 to R115) -/

theorem hashChain_zero (seed : Digest) : hashChain 0 seed = seed := rfl

theorem hashChain_succ (n : Nat) (seed : Digest) : hashChain (n + 1) seed = hash256 (hashChain n seed) := rfl

/-- R115: a chain goes on from where a shorter one ended. -/
theorem hashChain_add (m k : Nat) (seed : Digest) : hashChain (m + k) seed = hashChain k (hashChain m seed) := by
  induction k with
  | zero => rfl
  | succ k ih => rw [← Nat.add_assoc, hashChain_succ, hashChain_succ, ih]

/-- Settles O25: the two defining equations, and R115 by induction on k. -/
theorem hashChainLaws : Obligations.HashChainLaws := ⟨hashChain_zero, hashChain_succ, hashChain_add⟩

/-! ### How many HASHSTEPs lead to FINALIZE (R112) -/

/-- A run trace completes when its first operation answers and the rest completes from there. -/
theorem runTrace_cons_answers_iff {is : List Instr} :
    (∃ t, runTrace (i :: is) s = .next t) ↔ ∃ u, exec i s = .next u ∧ ∃ t, runTrace is u = .next t := by
  constructor
  · rintro ⟨t, h⟩
    cases hexec : exec i s with
    | next u => exact ⟨u, rfl, t, (runTrace_cons_next hexec is).symm.trans h⟩
    | fault f => rw [runTrace, hexec] at h; cases h
    | refused r => rw [runTrace, hexec] at h; cases h
  · rintro ⟨u, hexec, t, h⟩
    exact ⟨t, (runTrace_cons_next hexec is).trans h⟩

theorem runTrace_singleton_answers_iff : (∃ t, runTrace [i] s = .next t) ↔ ∃ t, exec i s = .next t := by
  rw [runTrace_cons_answers_iff]
  exact exists_congr fun u => and_iff_left ⟨u, rfl⟩

/-- R110 to R112: in SEEDED the HASHSTEPs that FINALIZE can follow number exactly N - I. -/
theorem runTrace_hashsteps_finalize_answers_iff (hp : s.phase = .seeded) :
    (∃ t, runTrace (List.replicate k .hashstep ++ [.finalize]) s = .next t) ↔ s.i.toNat + k = s.n.toNat := by
  induction k generalizing s with
  | zero =>
    calc (∃ t, runTrace [.finalize] s = .next t)
        ↔ s.phase = .seeded ∧ s.i = s.n := runTrace_singleton_answers_iff.trans exec_finalize_answers_iff
      _ ↔ s.i = s.n := and_iff_right hp
      _ ↔ s.i.toNat = s.n.toNat := BitVec.toNat_inj.symm
  | succ k ih =>
    rw [List.replicate_succ, List.cons_append, runTrace_cons_answers_iff]
    constructor
    · rintro ⟨u, hexec, hrest⟩
      cases exec_next hexec with
      | hashstep _ hlt =>
        have hcount : (s.i + 1).toNat + k = s.n.toNat := (ih (by exact hp)).mp hrest
        rw [succ_toNat_of_lt hlt] at hcount
        omega
    · intro hcount
      have hlt : s.i < s.n := BitVec.lt_def.mpr (by omega)
      have hrest : (s.i + 1).toNat + k = s.n.toNat := by
        rw [succ_toNat_of_lt hlt]
        omega
      exact ⟨_, exec_hashstep hp hlt, (ih (by exact hp)).mpr hrest⟩

/-- Settles O26: DECODE leaves I at 0 and N at the buffer's count, so N - I HASHSTEPs are the count's number. -/
theorem exactlyCountHashsteps : Obligations.ExactlyCountHashsteps := by
  intro s b k hp hb hl
  rw [List.append_assoc, List.singleton_append, runTrace_cons_next (exec_decode_ok hp hb hl),
    runTrace_hashsteps_finalize_answers_iff rfl]
  simp

/-! ### The run from launch (R113, R116) -/

/-- R70: with no turn pending a step is the core operation that is enabled. -/
theorem step_of_exec_core (hts : s.turns = []) (hi : isCoreOp i = true) (h : exec i s = .next t) :
    step s = .next t := by
  rw [step_of_selector (not_host_turn_of_core_turn (.inl hts)) (selector_of_exec hi h), advance_of_no_turns hts, h]

/-- R113, R26: the state in the loop when `k` iterations on the buffer `b` are done. -/
def State.afterIterations (s : State) (b : InputBuffer) (k : Nat) : State :=
  { s with n := b.count, i := BitVec.ofNat 64 k, state := hashChain k b.seed, phase := .seeded }

/-- R118: up to the count I does not wrap. -/
theorem State.afterIterations_i_toNat (s : State) (hk : k ≤ b.count.toNat) : (s.afterIterations b k).i.toNat = k :=
  (BitVec.toNat_ofNat k 64).trans (Nat.mod_eq_of_lt (hk.trans_lt b.count.isLt))

theorem State.afterIterations_i_count (s : State) (b : InputBuffer) :
    (s.afterIterations b b.count.toNat).i = b.count :=
  BitVec.eq_of_toNat_eq (s.afterIterations_i_toNat le_rfl)

/-- R26, R113: one more iteration adds 1 to I and hashes STATE once more. -/
theorem State.afterIterations_succ (s : State) (b : InputBuffer) (k : Nat) :
    s.afterIterations b (k + 1) =
      { s.afterIterations b k with
        state := hash256 (s.afterIterations b k).state
        i := (s.afterIterations b k).i + 1 } := by
  rw [State.afterIterations, BitVec.ofNat_add, hashChain_succ]
  rfl

/-- R80: DECODE enters the loop with no iteration done. -/
theorem exec_decode_afterIterations (hp : s.phase = .start) (hb : s.ibuf = some b) (hl : Config.minLen ≤ b.len) :
    exec .decode s = .next (s.afterIterations b 0) :=
  exec_decode_ok hp hb hl

/-- R110: below the count HASHSTEP is one more iteration. -/
theorem exec_hashstep_afterIterations (hk : k < b.count.toNat) :
    exec .hashstep (s.afterIterations b k) = .next (s.afterIterations b (k + 1)) := by
  have hlt : (s.afterIterations b k).i < (s.afterIterations b k).n := by
    rw [BitVec.lt_def, s.afterIterations_i_toNat hk.le]
    exact hk
  rw [exec_hashstep rfl hlt, State.afterIterations_succ]

/-- R111: FINALIZE follows the count's last iteration. -/
theorem exec_finalize_afterIterations :
    exec .finalize (s.afterIterations b b.count.toNat) =
      .next { s.afterIterations b b.count.toNat with phase := .finalized } :=
  exec_finalize rfl (s.afterIterations_i_count b)

/-- Settles O49, by induction on k: DECODE is the first step, and each further one is a HASHSTEP. -/
theorem loopHoldsDigest : Obligations.LoopHoldsDigest := by
  intro s b k hs hl hk
  change runSteps (k + 1) s = .next (s.afterIterations b k)
  induction k with
  | zero =>
    rw [runSteps_snoc (runSteps_zero s)]
    exact step_of_exec_core hs.turns rfl (exec_decode_afterIterations hs.phase hs.ibuf hl)
  | succ k ih =>
    rw [runSteps_snoc (ih (by omega))]
    exact step_of_exec_core hs.turns rfl (exec_hashstep_afterIterations hk)

/-- R75, R182: DECODE, as many HASHSTEPs as the count, FINALIZE and ENCODE take a launch state to DONE. -/
theorem State.Launch.runSteps_done (hs : s.Launch b) (hl : 40 ≤ b.len) :
    runSteps (b.count.toNat + 3) s = .next
      { s with
        phase := .done
        n := b.count
        i := b.count
        state := hashChain b.count.toNat b.seed
        out := outWords (hashChain b.count.toNat b.seed)
        otrace := outputWrites (hashChain b.count.toNat b.seed)
        sinkRx := s.sinkRx ++ outputWrites (hashChain b.count.toNat b.seed) } := by
  have hloop := loopHoldsDigest s b b.count.toNat hs hl le_rfl
  have hfinalized := (runSteps_snoc hloop).trans (step_of_exec_core hs.turns rfl exec_finalize_afterIterations)
  rw [runSteps_snoc hfinalized, step_of_exec_core (by exact hs.turns) rfl (exec_encode rfl), s.afterIterations_i_count b]
  simp only [State.afterIterations, hs.otrace, List.nil_append]

/-- Settles O53: both runs take the count's number of steps plus 3, and end with the words of one HashChain(N, seed). -/
theorem runDependsOnFirst40Bytes : Obligations.RunDependsOnFirst40Bytes := by
  intro s s' b b' hs hs' hl hl' hagree
  have hrun := hs'.runSteps_done hl'
  rw [← InputBuffer.count_congr hagree, ← InputBuffer.seed_congr hagree] at hrun
  exact ⟨_, _, _, hs.runSteps_done hl, hrun, rfl, rfl, rfl, rfl, rfl⟩

end Sys2Proof.Machine
end

section
/-!
ENCODE and the output words (43_encode.md R125 to R130): each word as the big-endian reading of its four digest bytes, the
words as another spelling of the digest, the state an ended run keeps, and the words of a run with count 0.
-/

namespace Sys2Proof.Machine

variable {i : Instr} {s t : State} {b : InputBuffer}

/-! ### The words of a digest (R66, R129) -/

/-- R66: four bytes are a 32-bit number. -/
theorem be_lt_word {bs : List Byte} (hl : bs.length = 4) : be bs < 2 ^ 32 := by
  have h := le_lt bs.reverse
  rw [List.length_reverse, hl] at h
  norm_num at h ⊢
  exact h

/-- R66: four bytes fit a word, so the word is their big-endian reading with nothing cut off. -/
theorem outWord_toNat (d : Digest) (k : Fin 8) :
    (outWord d k).toNat = be [d[4 * k.val], d[4 * k.val + 1], d[4 * k.val + 2], d[4 * k.val + 3]] :=
  (BitVec.toNat_ofNat _ 32).trans (Nat.mod_eq_of_lt (be_lt_word rfl))

theorem outWords_getElem (d : Digest) {k : Nat} (hk : k < 8) : (outWords d)[k] = outWord d ⟨k, hk⟩ :=
  Vector.getElem_ofFn hk

/-- R127: the ordered writes are the output words, each with its index. -/
theorem outputWrites_eq_outWords (d : Digest) :
    outputWrites d =
      ([(0, (outWords d)[0]), (1, (outWords d)[1]), (2, (outWords d)[2]), (3, (outWords d)[3]), (4, (outWords d)[4]),
        (5, (outWords d)[5]), (6, (outWords d)[6]), (7, (outWords d)[7])] : List (Fin 8 × Word)) := by
  simp only [outWords_getElem]
  rfl

/-- R129: a word written big-endian is the four digest bytes it was read from. -/
theorem toBe_outWord (d : Digest) (k : Fin 8) :
    toBe 4 (outWord d k).toNat = List.ofFn fun r : Fin 4 => d[4 * k.val + r.val] := by
  have hlt : (outWord d k).toNat < 256 ^ 4 := (outWord d k).isLt.trans_eq (by norm_num)
  exact ((length_eq_and_be_eq_iff hlt _).mp ⟨rfl, (outWord_toNat d k).symm⟩).symm

/-- R129: the words written big-endian one after another are the digest. -/
theorem flatten_toBe_outWords (d : Digest) :
    ((outWords d).toList.map fun w => toBe 4 w.toNat).flatten = d.toList := by
  have hbytes : List.ofFn (fun j : Fin (4 * 8) => d[j.val]) = d.toList := by
    rw [← Vector.toList_ofFn, Vector.ofFn_getElem]
  rw [outWords, Vector.toList_ofFn, List.map_ofFn, ← hbytes, List.ofFn_mul']
  exact congrArg (fun f => (List.ofFn f).flatten) (funext (toBe_outWord d))

/-- Settles O34: the words spell their digest, so they determine it, and `digestOfWords` has any given words. -/
theorem encodingLosesNothing : Obligations.EncodingLosesNothing := by
  refine ⟨flatten_toBe_outWords, fun d d' heq => ?_, fun ws => ⟨digestOfWords ws, outWords_digestOfWords ws⟩⟩
  rw [← Vector.toList_inj, ← flatten_toBe_outWords d, heq, flatten_toBe_outWords d']

/-! ### ENCODE (R125, R127) -/

/-- Settles O33: ENCODE writes the digest's words; R70's table gives its condition, and that no other core operation is
enabled there. -/
theorem encodeAsSpecified : Obligations.EncodeAsSpecified := by
  obtain ⟨_, hunique⟩ := operationMap
  refine ⟨fun s hp => ⟨_, outputWrites s.state, exec_encode hp, fun k hk => ?_, outputWrites_eq_outWords s.state, rfl⟩,
    fun s t hnext => ⟨fun i u hi hu => ?_, ?_⟩⟩
  · rw [outWords_getElem s.state hk, outWord_toNat, be_four]
  · exact hunique s u t i .encode hu hnext hi rfl
  · exact exec_encode_answers_iff.mp ⟨t, hnext⟩

/-! ### An ended run (R128, R182) -/

/-- R182: once the run has ended only a host read and RESET answer, and the read changes the model's replies and draws
alone. -/
theorem State.ended.host_read_of_exec (hend : s.ended) (hnext : exec i s = .next t) (hi : i ≠ .reset) :
    ∃ rs d, t = { s with replies := rs, draws := d } := by
  cases exec_next hnext with
  | reset => exact absurd rfl hi
  | rdstatus | rdoutDone | rdoutOther => exact ⟨_, _, rfl⟩
  | load _ hp | decodeShort _ hp | decodeOk _ hp | hashstep hp | finalize hp | encode hp =>
    simp [State.ended, hp] at hend

/-- Settles O39: the model's replies and draws are no element of the core. -/
theorem endedStateKept : Obligations.EndedStateKept := by
  intro i s t hend hnext hi
  obtain ⟨rs, d, rfl⟩ := hend.host_read_of_exec hnext hi
  exact ⟨rfl, rfl, rfl, rfl, rfl, rfl, rfl, rfl⟩

/-! ### A run with count 0 (R130) -/

theorem InputBuffer.count_toNat_eq_zero (h : ∀ k, k < 8 → b.byte k = 0) : b.count.toNat = 0 := by
  simp [b.count_toNat_eq_sum, h]

/-- R130: the words of the seed field are read big-endian from the buffer's own bytes. -/
theorem InputBuffer.outWords_seed_toNat (b : InputBuffer) {j : Nat} (hj : j < 8) :
    (outWords b.seed)[j].toNat =
      be [b.byte (8 + 4 * j), b.byte (8 + 4 * j + 1), b.byte (8 + 4 * j + 2), b.byte (8 + 4 * j + 3)] := by
  simp only [outWords_getElem _ hj, outWord_toNat, InputBuffer.seed_getElem, Nat.add_assoc]

/-- R130: a seed field of zeros has words of zeros. -/
theorem InputBuffer.outWords_seed_eq_zero (h : ∀ k, 8 ≤ k → k < 40 → b.byte k = 0) {j : Nat} (hj : j < 8) :
    (outWords b.seed)[j] = 0 := by
  apply BitVec.eq_of_toNat_eq
  rw [b.outWords_seed_toNat hj, be_four]
  simp (disch := omega) [h]

/-- Settles O52: with count 0 the run is 3 steps long, and HashChain(0, seed) is the seed. -/
theorem zeroCountOutputsSeed : Obligations.ZeroCountOutputsSeed := by
  intro s b hs hl hzero
  have hrun := hs.runSteps_done hl
  rw [InputBuffer.count_toNat_eq_zero hzero, hashChain_zero] at hrun
  exact ⟨_, hrun, rfl, fun _ => b.outWords_seed_toNat, fun hseed _ => InputBuffer.outWords_seed_eq_zero hseed⟩

end Sys2Proof.Machine
end

section
/-!
The host's operations (44_host.md R136 to R139), the host's turn (R135), and what the sink keeps (R136).
-/

namespace Sys2Proof.Machine

variable {i : Instr} {s t : State} {buf : List Byte}

/-! ### RESET -/

/-- Settles O3: the draws RESET makes are for N, I, STATE and OUT alone. -/
theorem resetCompletes : Obligations.ResetCompletes :=
  fun s => ⟨_, exec_reset s, rfl, rfl, rfl, rfl, State.status_eq _, rfl, rfl, rfl⟩

/-! ### LOAD -/

theorem exec_load_refused (h : ¬ (s.phase = .start ∧ s.ibuf = none)) :
    exec (.load buf) s = .refused .loadNotAvailable :=
  if_neg h

/-- Settles O7: LOAD tests its condition first. -/
theorem loadRefusedElsewhere : Obligations.LoadRefusedElsewhere := fun _ _ => exec_load_refused

/-- R137, R41: a bound buffer reads back the bytes that were presented. -/
theorem memRead_ofBytes (hb : s.ibuf = some (InputBuffer.ofBytes buf)) {k : Nat} (hk : k < buf.length) :
    memRead k 1 s = .ok #v[buf[k]] := by
  have hbyte : (InputBuffer.ofBytes buf).byte k = buf[k] := by
    rw [InputBuffer.byte_ofBytes, List.getD_eq_getElem _ _ hk]
  rw [memRead_inside hb hk, ← hbyte]
  rfl

/-- Settles O5: LOAD binds `InputBuffer.ofBytes` of what was presented. -/
theorem loadBindsBuffer : Obligations.LoadBindsBuffer := by
  refine ⟨fun s buf hp hb hw => ?_, fun s t buf hnext => ?_⟩
  · refine ⟨InputBuffer.ofBytes buf, _, rfl, exec_load hp hb hw, rfl, fun _ => memRead_ofBytes rfl, ?_⟩
    rw [State.status_eq, hp]
    rfl
  · cases exec_next hnext with
    | load _ hp hb => exact ⟨hp, hb⟩

/-! ### The host's reads -/

/-- R36: outside START a buffer is bound. -/
theorem State.PhaseInv.bound (h : s.PhaseInv) (hp : s.phase ≠ .start) : s.ibuf.isSome = true := by
  have hbound : ∃ b, s.ibuf = some b := by
    cases hphase : s.phase with
    | start => exact absurd hphase hp
    | seeded => exact ((State.phaseInv_seeded hphase).mp h).imp fun _ => And.left
    | finalized => exact ((State.phaseInv_finalized hphase).mp h).imp fun _ => And.left
    | done => exact ((State.phaseInv_done hphase).mp h).imp fun _ => And.left
    | malformed => exact ((State.phaseInv_malformed hphase).mp h).imp fun _ => And.left
  exact Option.isSome_iff_exists.mpr hbound

/-- Settles O8: in START both values of STATUS.BOUND occur, in every other phase a buffer is bound. -/
theorem rdstatusReturnsStatus : Obligations.RdstatusReturnsStatus := by
  refine ⟨exec_rdstatus, fun s hs => ?_⟩
  rw [State.status_eq]
  by_cases hp : s.phase = .start
  · cases hb : s.ibuf <;> simp [hp]
  · rw [hs.phase.bound hp]
    cases hphase : s.phase with
    | start => exact absurd hphase hp
    | seeded | finalized | done | malformed => rfl

/-- Settles O9: in DONE the word is the output register's own. -/
theorem rdoutInDone : Obligations.RdoutInDone := fun _ k hp => exec_rdout_done k hp

/-- Settles O11: a read takes PHASE, whether IBUF is bound, OUT and the draw counter, and none of N, I and STATE. -/
theorem hostReadsHideTheChain : Obligations.HostReadsHideTheChain := by
  rintro s n i d op (rfl | ⟨k, rfl⟩)
  · exact ⟨_, exec_rdstatus s, exec_rdstatus _⟩
  · by_cases hp : s.phase = .done
    · exact ⟨_, exec_rdout_done k hp, exec_rdout_done k hp⟩
    · exact ⟨_, exec_rdout_other k hp, exec_rdout_other k hp⟩

/-! ### The host's turn -/

/-- R135: on the host's turn a step is the host's move, with the turn used up. -/
theorem step_host_turn {op : HostOp} {rest : List Turn} (h : s.turns = .host op :: rest) :
    step s = exec op.instr { s with turns := rest } := by
  rw [step_of_fetch (fetch_host h), State.advance, h, List.tail_cons]

/-- Settles O42: the statement's table of operations is `HostOp.instr`. -/
theorem stepPerformsHostMove : Obligations.StepPerformsHostMove := by
  intro s op rest h
  rw [step_host_turn h]
  cases op <;> rfl

/-! ### What the sink has received -/

/-- R33, R136: ENCODE hands the sink its writes, and no other operation touches what it has received. -/
theorem ExecCase.sinkRx_extends (h : ExecCase s i t) : ∃ new, t.sinkRx = s.sinkRx ++ new := by
  cases h with
  | encode => exact ⟨outputWrites s.state, rfl⟩
  | _ => exact ⟨[], (List.append_nil _).symm⟩

/-- Settles O41: a step performs an operation or idles. -/
theorem sinkWritesAreNeverRecalled : Obligations.SinkWritesAreNeverRecalled := by
  intro s t hstep
  obtain ⟨i, _, hexec⟩ | ⟨_, rfl⟩ := step_next hstep
  · exact hexec.sinkRx_extends
  · exact ⟨[], (List.append_nil _).symm⟩

end Sys2Proof.Machine
end

section
/-!
Runs with host reads between the core's operations (44_host.md R140 (d)): such a run does what the core's moves alone do,
and from launch it ends at the core's move N + 3, with the words of HashChain(N, seed) (42_chain.md R116).
-/

namespace Sys2Proof.Machine

variable {s t : State} {b : InputBuffer} {k : Nat}

/-! ### The core's moves alone, from launch (R182, R183) -/

/-- R182: when the run has ended and no turn is pending, a step changes nothing. -/
theorem State.ended.step_eq (hend : s.ended) (hts : s.turns = []) : step s = .next s := by
  have hidle : ∃ e, decodeBytes [s.selector] = .error e := by
    rcases hend with hp | hp
    · exact ⟨_, decode_selector_done hp⟩
    · exact ⟨_, decode_selector_malformed hp⟩
  obtain ⟨e, he⟩ := hidle
  rw [step_of_selector_error (not_host_turn_of_core_turn (.inl hts)) he, advance_of_no_turns hts]

/-- R75, R113: the state in which a run on the buffer `b`, started at `s`, has ended. -/
def State.afterRun (s : State) (b : InputBuffer) : State :=
  { s with
    phase := .done
    n := b.count
    i := b.count
    state := hashChain b.count.toNat b.seed
    out := outWords (hashChain b.count.toNat b.seed)
    otrace := outputWrites (hashChain b.count.toNat b.seed)
    sinkRx := s.sinkRx ++ outputWrites (hashChain b.count.toNat b.seed) }

/-- R182, R183: from the core's move N + 3 on the run has ended. -/
theorem State.Launch.runSteps_afterRun (hs : s.Launch b) (hl : 40 ≤ b.len) (hk : b.count.toNat + 3 ≤ k) :
    runSteps k s = .next (s.afterRun b) := by
  induction k, hk using Nat.le_induction with
  | base => exact hs.runSteps_done hl
  | succ k _ ih => exact (runSteps_snoc ih).trans (State.ended.step_eq (s := s.afterRun b) (.inl rfl) hs.turns)

/-- R183: before the core's move N + 3 it has not: the moves are DECODE, N HASHSTEPs, FINALIZE and ENCODE. -/
theorem State.Launch.runSteps_not_ended (hs : s.Launch b) (hl : 40 ≤ b.len) (hk : k < b.count.toNat + 3) :
    ∃ u, runSteps k s = .next u ∧ ¬ u.ended := by
  have hloop {j : Nat} (hj : j ≤ b.count.toNat) : runSteps (j + 1) s = .next (s.afterIterations b j) :=
    loopHoldsDigest s b j hs hl hj
  cases k with
  | zero => exact ⟨s, rfl, by simp [State.ended, hs.phase]⟩
  | succ j =>
    obtain hj | rfl : j ≤ b.count.toNat ∨ j = b.count.toNat + 1 := by omega
    · exact ⟨_, hloop hj, by rintro (hp | hp) <;> cases hp⟩
    · have hts : (s.afterIterations b b.count.toNat).turns = [] := hs.turns
      have hfinalize := step_of_exec_core hts rfl exec_finalize_afterIterations
      exact ⟨_, (runSteps_snoc (hloop le_rfl)).trans hfinalize, by rintro (hp | hp) <;> cases hp⟩

/-- R183: the run takes exactly N + 3 moves of the core. -/
theorem State.Launch.ended_iff (hs : s.Launch b) (hl : 40 ≤ b.len) (h : runSteps k s = .next t) :
    t.ended ↔ b.count.toNat + 3 ≤ k := by
  constructor
  · intro hend
    by_contra! hk
    obtain ⟨u, hu, hnot⟩ := hs.runSteps_not_ended hl hk
    cases h.symm.trans hu
    exact hnot hend
  · intro hk
    cases h.symm.trans (hs.runSteps_afterRun hl hk)
    exact .inl rfl

/-! ### Host reads between the core's moves (R140 (d)) -/

theorem runSteps_of_step (h : step s = .next t) (k : Nat) : runSteps (k + 1) s = runSteps k t := by
  rw [runSteps_succ, h]

/-- Log entry 5: a turn that is not the host's is a move of the core. -/
theorem coreMoves_succ_of_core_turn {ts : List Turn} (h : ∀ op rest, ts ≠ .host op :: rest) (m : Nat) :
    coreMoves (m + 1) ts = coreMoves m ts.tail + 1 := by
  rcases ts with _ | ⟨_ | op, rest⟩
  · rfl
  · rfl
  · exact absurd rfl (h op rest)

/-- R140 (d), by induction on the number of steps: a move of the core does the same whatever the host has read, and a read
changes what the host has read alone. -/
theorem runSteps_of_reads (m : Nat) {s : State} (hreads : s.turns.all Turn.coreOrRead = true) :
    ∃ u : State,
      (∀ rs d, runSteps (coreMoves m s.turns) { s with turns := [], replies := rs, draws := d } =
        .next { u with turns := [], replies := rs, draws := d }) ∧
      ∃ rs d, runSteps m s = .next { u with turns := s.turns.drop m, replies := rs, draws := d } := by
  induction m generalizing s with
  | zero => exact ⟨s, fun _ _ => rfl, s.replies, s.draws, rfl⟩
  | succ m ih =>
    by_cases hhost : ∃ op rest, s.turns = .host op :: rest
    · obtain ⟨op, rest, hts⟩ := hhost
      rw [hts, List.all_cons, Bool.and_eq_true] at hreads
      obtain ⟨hread, hrest⟩ := hreads
      obtain ⟨rs, d, hexec⟩ := exec_read hread { s with turns := rest }
      obtain ⟨u, halone, hrun⟩ := ih (s := { s with turns := rest, replies := rs, draws := d }) hrest
      refine ⟨u, ?_, ?_⟩
      · rw [hts, coreMoves_host]
        exact halone
      · rw [runSteps_of_step ((step_host_turn hts).trans hexec), hts, List.drop_succ_cons]
        exact hrun
    · push Not at hhost
      have hrest : s.turns.tail.all Turn.coreOrRead = true := by
        rw [List.all_eq_true] at hreads ⊢
        exact fun turn hturn => hreads turn (List.mem_of_mem_tail hturn)
      obtain ⟨v, hstep⟩ := step_core_turn s
      obtain ⟨u, halone, hrun⟩ :=
        ih (s := { v with turns := s.turns.tail, replies := s.replies, draws := s.draws }) hrest
      refine ⟨u, fun rs d => ?_, ?_⟩
      · rw [coreMoves_succ_of_core_turn hhost, runSteps_of_step (hstep [] rs d (by simp))]
        exact halone rs d
      · rw [runSteps_of_step (hstep s.turns s.replies s.draws hhost), ← List.drop_tail]
        exact hrun

/-- R140 (d), R183: from launch such a run has ended exactly when the core has made its N + 3 moves, and it has then done
what the core does alone. -/
theorem runSteps_of_reads_from_launch (m : Nat) (hreads : s.turns.all Turn.coreOrRead = true)
    (hs : State.Launch { s with turns := [] } b) (hl : 40 ≤ b.len) :
    ∃ t, runSteps m s = .next t ∧ (t.ended ↔ b.count.toNat + 3 ≤ coreMoves m s.turns) ∧
      (t.ended → ∃ ts rs d, t = { s.afterRun b with turns := ts, replies := rs, draws := d }) := by
  obtain ⟨u, halone, rs, d, hrun⟩ := runSteps_of_reads m hreads
  have halone := halone s.replies s.draws
  have hended := hs.ended_iff hl halone
  refine ⟨_, hrun, hended, fun hend => ?_⟩
  have hu := Host.Outcome.next.inj (halone.symm.trans (hs.runSteps_afterRun hl (hended.mp hend)))
  exact ⟨_, rs, d, congrArg (fun v : State => { v with turns := s.turns.drop m, replies := rs, draws := d }) hu⟩

/-- Settles O60: the run with reads does what the core's moves do alone, and from launch these determine how it ends. -/
theorem runWithHostReads : Obligations.RunWithHostReads := by
  refine ⟨fun s m hreads => ?_, fun s b m hreads hs hl => ?_,
    fun s s' b b' m m' hreads hreads' hs hs' hl hl' hagree hm hm' => ?_⟩
  · obtain ⟨u, halone, rs, d, hrun⟩ := runSteps_of_reads m hreads
    exact ⟨_, _, hrun, halone s.replies s.draws, rfl⟩
  · obtain ⟨t, hrun, hended, hafter⟩ := runSteps_of_reads_from_launch m hreads hs hl
    refine ⟨t, hrun, hended, fun hend => ?_⟩
    obtain ⟨ts, rs, d, rfl⟩ := hafter hend
    simp only [State.afterRun, and_self]
  · obtain ⟨t, hrun, hended, hafter⟩ := runSteps_of_reads_from_launch m hreads hs hl
    obtain ⟨t', hrun', hended', hafter'⟩ := runSteps_of_reads_from_launch m' hreads' hs' hl'
    obtain ⟨_, _, _, rfl⟩ := hafter (hended.mpr hm)
    obtain ⟨_, _, _, rfl⟩ := hafter' (hended'.mpr hm')
    refine ⟨_, _, hrun, hrun', ?_⟩
    simp only [State.afterRun, InputBuffer.count_congr hagree, InputBuffer.seed_congr hagree, and_self]

end Sys2Proof.Machine
end

section
/-!
Exceptions (60_exceptions.md R150 to R155): MalformedInput is what DECODE raises for a short buffer, the state it leaves is
ended until RESET, and no step stops but at a LOAD that is not available.
-/

namespace Sys2Proof.Machine

variable {i : Instr} {s t : State} {buf : List Byte}

/-! ### What raises MalformedInput, and what STATUS then reads (R151, R154) -/

/-- R151: only DECODE enters MALFORMED. -/
theorem ExecCase.eq_decode_of_enters_malformed (h : ExecCase s i t) (hs : s.phase ≠ .malformed)
    (ht : t.phase = .malformed) : i = .decode := by
  cases h with
  | decodeShort | decodeOk => rfl
  | reset | finalize | encode => cases ht
  | load | rdstatus | rdoutDone | rdoutOther | hashstep => exact absurd ht hs

/-- R81, R82: of what DECODE reads, the length alone decides whether it enters MALFORMED. -/
theorem exec_decode_next_malformed_iff (h : exec .decode s = .next t) :
    ∃ b, s.ibuf = some b ∧ (t.phase = .malformed ↔ b.len < 40) := by
  cases exec_next h with
  | decodeShort b _ hb hl => exact ⟨b, hb, iff_of_true rfl hl⟩
  | decodeOk b _ hb hl => exact ⟨b, hb, iff_of_false (by simp) (not_lt.mpr hl)⟩

/-- R29, R151: cause code 0 is every other phase's. -/
theorem State.status_errField_eq_zero_iff (s : State) : s.status.extractLsb' 4 4 = 0 ↔ s.phase ≠ .malformed := by
  rw [s.status_errField]
  cases s.phase <;> decide

/-- Settles O19: the length decides the phase, and the phase is what STATUS.ERR tells. -/
theorem malformedInputCause : Obligations.MalformedInputCause := by
  refine ⟨fun i s t hnext => (exec_next hnext).eq_decode_of_enters_malformed, fun s t hnext => ?_⟩
  obtain ⟨b, hb, hphase⟩ := exec_decode_next_malformed_iff hnext
  refine ⟨b, hb, hphase, t.status_errField_eq_one_iff.trans hphase, ?_⟩
  rw [t.status_errField_eq_zero_iff, ne_eq, hphase, not_lt]

/-- Settles O20: STATUS is a view of PHASE and of the buffer, which is still bound. -/
theorem malformedInputEntry : Obligations.MalformedInputEntry := by
  intro s b hp hb hl
  refine ⟨_, exec_decode_short hp hb hl, rfl, ?_⟩
  rw [State.status_eq, raiseMalformedInput_phase, raiseMalformedInput_ibuf, hb]
  rfl

/-! ### MALFORMED is terminal (R155) -/

/-- R70, R155: in MALFORMED the selector names no operation, so no core operation is enabled. -/
theorem exec_core_ne_next_of_malformed (hp : s.phase = .malformed) (hi : isCoreOp i = true) : exec i s ≠ .next t := by
  intro hnext
  cases (decode_selector_malformed hp).symm.trans (selector_of_exec hi hnext)

/-- R136, R137, R82: from any state RESET, LOAD of a short buffer and DECODE lead to MALFORMED. -/
theorem runTrace_reset_load_decode_short (s : State) (hl : buf.length < 40) (hw : (Instr.load buf).wellFormed = true) :
    ∃ t, runTrace [.reset, .load buf, .decode] s = .next t ∧ t.phase = .malformed := by
  rw [runTrace_cons_next (exec_reset s), runTrace_cons_next (exec_load rfl rfl hw)]
  exact ⟨_, runTrace_cons_next (exec_decode_short rfl rfl hl) [], rfl⟩

/-- Settles O21: MALFORMED is an ended state, and only RESET changes the phase of one. -/
theorem malformedIsTerminal : Obligations.MalformedIsTerminal := by
  refine fun s hp => ⟨fun i hi t => exec_core_ne_next_of_malformed hp hi, fun i t hnext hleaves => ?_,
    fun buf => runTrace_reset_load_decode_short s⟩
  by_contra hi
  obtain ⟨hphase, _⟩ := endedStateKept i s t (.inr hp) hnext hi
  exact hleaves (hphase.trans hp)

/-! ### Where a step stops (R150) -/

theorem step_ne_fault (s : State) (f : Fault) : step s ≠ .fault f := by
  cases hfetch : s.fetch with
  | none => rw [step_of_idle hfetch]; exact nofun
  | some i => rw [step_of_fetch hfetch]; exact exec_ne_fault i s.advance f

/-- R70: the core's turn is never refused. -/
theorem host_turn_of_step_refused {r : Refusal} (h : step s = .refused r) : ∃ op rest, s.turns = .host op :: rest := by
  by_contra! hcore
  obtain ⟨t, hstep⟩ := step_core_turn s
  cases h.symm.trans (hstep s.turns s.replies s.draws hcore)

/-- R135 to R139: of the host's operations LOAD alone has a condition. -/
theorem load_of_exec_host_refused {op : HostOp} {r : Refusal} (h : exec op.instr s = .refused r) :
    ∃ buf, op = .load buf ∧ (¬ (s.phase = .start ∧ s.ibuf = none) ∨ (Instr.load buf).wellFormed = false) := by
  cases op with
  | reset => cases h
  | rdstatus => cases h
  | rdout k =>
    obtain ⟨_, _, hread⟩ := exec_read (op := .rdout k) rfl s
    cases h.symm.trans hread
  | load buf =>
    refine ⟨buf, rfl, ?_⟩
    by_contra! hc
    obtain ⟨⟨hp, hb⟩, hw⟩ := hc
    cases h.symm.trans (exec_load hp hb (Bool.eq_true_of_not_eq_false hw))

/-- Settles O40: a step that is refused is the host's move, and the move is a LOAD. -/
theorem noStepFaults : Obligations.NoStepFaults := by
  refine ⟨step_ne_fault, fun s r hstep => ?_⟩
  obtain ⟨op, rest, hturns⟩ := host_turn_of_step_refused hstep
  obtain ⟨buf, rfl, hload⟩ := load_of_exec_host_refused ((step_host_turn hturns).symm.trans hstep)
  exact ⟨buf, rest, hturns, hload⟩

end Sys2Proof.Machine
end

section
/-!
Reset and hazards (70_reset_and_hazards.md): what RESET depends on (R171), and how a run goes from launch: idle with no
operation enabled (R182), and at every other turn of the core one move nearer its end (R183).
-/

namespace Sys2Proof.Machine

variable {i : Instr} {s t : State}

/-! ### RESET (R171) -/

/-- Settles O4: RESET writes constants and free values to the core's elements, and keeps the model's own fields. -/
theorem resetForgetsTheRun : Obligations.ResetForgetsTheRun := by
  intro s s' hturns hreplies hsink hdraws
  simp only [exec_reset, undefineRegisters, hturns, hreplies, hsink, hdraws]

/-! ### The core's turn: idle, or a move on -/

/-- R70, R182: waiting for LOAD, or with the run ended, the selector names no operation. -/
theorem decode_selector_idle (h : (s.phase = .start ∧ s.ibuf = none) ∨ s.ended) :
    ∃ e, decodeBytes [s.selector] = .error e := by
  obtain ⟨hp, hb⟩ | hp | hp := h
  · exact ⟨_, decode_selector_start_unbound hp hb⟩
  · exact ⟨_, decode_selector_done hp⟩
  · exact ⟨_, decode_selector_malformed hp⟩

/-- Settles O44: the selector names no operation, and a step that performs none uses up the turn alone. -/
theorem idleStepKeepsState : Obligations.IdleStepKeepsState := by
  intro s hcore hidle
  obtain ⟨e, he⟩ := decode_selector_idle hidle
  exact step_of_selector_error (not_host_turn_of_core_turn hcore) he

/-- R70, R182: while a bound run has not ended the selector names an operation; in SEEDED because I is at most N (R118). -/
theorem State.PhaseInv.decode_selector_bound (hinv : s.PhaseInv) (hb : s.ibuf ≠ none) (hrun : ¬ s.ended) :
    ∃ i, decodeBytes [s.selector] = .ok i := by
  cases hp : s.phase with
  | start => exact ⟨_, decode_selector_start_bound hp (Option.isSome_iff_ne_none.mpr hb)⟩
  | seeded =>
    obtain ⟨b, _, hchain, _⟩ := (State.phaseInv_seeded hp).mp hinv
    obtain hlt | heq := (BitVec.le_def.mp hchain.le).lt_or_eq
    · exact ⟨_, decode_selector_seeded_lt hp (BitVec.lt_def.mpr hlt)⟩
    · exact ⟨_, decode_selector_seeded_eq hp (BitVec.eq_of_toNat_eq heq)⟩
  | finalized => exact ⟨_, decode_selector_finalized hp⟩
  | done => exact absurd (.inl hp) hrun
  | malformed => exact absurd (.inr hp) hrun

/-- R183: HASHSTEP adds 1 to I, and the other core operations leave their phase. -/
theorem ExecCase.progress_of_core (h : ExecCase s i t) (hi : isCoreOp i = true) :
    t.phase ≠ s.phase ∨ t.i.toNat = s.i.toNat + 1 := by
  cases h with
  | hashstep _ hlt => exact .inr (succ_toNat_of_lt hlt)
  | decodeShort _ hp | decodeOk _ hp | finalize hp | encode hp => exact .inl (by simp [hp])
  | _ => cases hi

/-- Settles O45: the invariant leaves the core an operation to perform, and each one is a move on. -/
theorem boundRunProgresses : Obligations.BoundRunProgresses := by
  refine fun s hinv hb hrun => ⟨fun hcore => ?_, fun op rest hturns hread => ?_⟩
  · obtain ⟨i, hsel⟩ := hinv.phase.decode_selector_bound hb hrun
    obtain ⟨hi, t, hexec⟩ := exec_of_selector (s := s.advance) hsel
    exact ⟨t, (step_of_selector (not_host_turn_of_core_turn hcore) hsel).trans hexec,
      (exec_next hexec).progress_of_core hi⟩
  · have hreads : (Turn.host op).coreOrRead = true := by
      obtain rfl | ⟨k, rfl⟩ := hread <;> rfl
    obtain ⟨rs, d, hexec⟩ := exec_read hreads { s with turns := rest }
    exact ⟨_, (step_host_turn hturns).trans hexec, rfl⟩

/-! ### Whole runs from launch (R183) -/

/-- Settles O50: the N + 3 operations are DECODE, N HASHSTEPs, FINALIZE and ENCODE, and only the last ends the run. -/
theorem runComputesTheChain : Obligations.RunComputesTheChain :=
  fun _ _ hs hl => ⟨fun _ => hs.runSteps_not_ended hl, hs.runSteps_done hl⟩

/-- Settles O51, by induction on k: DECODE takes MalformedInput, and every later step is that of an ended run. -/
theorem shortRunEndsMalformed : Obligations.ShortRunEndsMalformed := by
  intro s b k hs hl
  induction k with
  | zero =>
    rw [runSteps_snoc (runSteps_zero s)]
    exact step_of_exec_core hs.turns rfl (exec_decode_short hs.phase hs.ibuf hl)
  | succ k ih => exact (runSteps_snoc ih).trans (State.ended.step_eq (.inr rfl) hs.turns)

end Sys2Proof.Machine
end
